-- ==== Sys2Proof/Word.lean ====
section
/-! DEFINITION. The plain types of the machine: the opcodes, the fields of an instruction word, a tagged operand, and the causes
of a fault. A cell, an operand, an address and a channel value are mathematical integers (R10, R21): the architecture has no bits
or bytes (R41). -/

namespace Sys2Proof

/-- The nine operations (R2, R72), each under the document's name. -/
inductive Op where
  | add
  | multiply
  | input
  | output
  | jumpIfTrue
  | jumpIfFalse
  | lessThan
  | equal
  | halt
  deriving DecidableEq, Repr

/-- The four decimal fields of an instruction word (R61): the opcode and the mode digits of operands 1, 2 and 3. -/
structure Fields where
  op : Nat
  d1 : Nat
  d2 : Nat
  d3 : Nat
  deriving DecidableEq, Repr

/-- A tagged operand (R69): the operand cell's value with its addressing mode. -/
inductive Operand where
  /-- `Immediate(v)`, mode digit 1: the literal operand value. -/
  | imm (v : Int)
  /-- `Position(a)`, mode digit 0: an index into memory. -/
  | pos (a : Int)
  deriving DecidableEq, Repr

/-- The eight causes of a fault (R160), the contents of the status register `err` (R24). -/
inductive Cause where
  /-- R161, code 1: the word at the pc is negative, or 100000 or more. -/
  | malformedWord
  /-- R162, code 2: the opcode is not in the defined set. -/
  | unknownOpcode (op : Nat)
  /-- R163, code 3: a mode digit is 2 to 9. -/
  | invalidAddressingMode (digit : Nat)
  /-- R164, code 4: too few cells remain for the instruction's operands. -/
  | truncatedInstruction
  /-- R165, code 5: a read or write addressed outside memory. -/
  | outOfBounds (address : Int)
  /-- R166, code 6: a write through an Immediate operand. -/
  | writeToImmediate
  /-- R167, code 7: the pc is outside memory at a fetch. -/
  | programCounterOutOfBounds
  /-- R168, code 8 (the spec's own, D2): a sum or product that does not fit a cell. -/
  | arithmeticOverflow
  deriving DecidableEq, Repr

end Sys2Proof
end

