-- ==== Sys2Proof/Config.lean ====
section
/-! DEFINITION. The parameters of the machine (R6 to R8) and the values `State.reset` takes for them. -/

namespace Sys2Proof

/-- `CELL_BITS` (R6): a width in bits, or the unbounded integers, which R6 allows as an instance. -/
inductive CellWidth where
  | bits (w : Nat)
  | unbounded
  deriving DecidableEq, Repr

/-- The cell width of `State.reset`. DESIGN CHOICE (log entry 1): R6's recommended value; every state carries its own width,
so statements over all states hold for every width. Unsafe for a statement that rests on the reset width. -/
def Config.resetWidth : CellWidth := .bits 64

/-- The memory length of `State.reset`. DESIGN CHOICE (log entry 2): INT_MAX - 3 for 64-bit cells, the greatest length R7
allows. Unsafe for a statement that rests on the reset length. -/
def Config.resetMemLen : Nat := 2 ^ 63 - 4

end Sys2Proof
end

