-- ==== Sys2Proof/Machine/State.lean ====
section
/-! DEFINITION. The state of one machine instance (`10_state.md`), the reasons a step can stop, and the state after reset. -/

namespace Sys2Proof.Machine

/-- The engine's state (R23). -/
inductive RunState where
  | running
  | halted
  | faulted
  deriving DecidableEq, Repr

/-- Memory as (address, cell) pairs in one canonical form: addresses strictly rising, no cell equal to what an unlisted
address reads as (`Memory.wf`). The unit of addressing is one cell, never a byte (R40, R41). -/
abbrev Memory := List (Nat × Int)

/-- Every piece of state the spec gives one machine instance (`10_state.md` section 1). Data only. -/
structure State where
  /-- CELL_BITS (R6): fixed for the machine's lifetime. -/
  width : CellWidth
  /-- MEM_LEN (R7): fixed by the loaded image. -/
  memLen : Nat
  /-- The cells `mem[0..N-1]` (R21). -/
  mem : Memory
  /-- The program counter (R22): any cell value, checked at the next fetch. -/
  pc : Int
  /-- The status register `run` (R23). -/
  run : RunState
  /-- The status register `err` (R24): absent until a fault writes it. -/
  err : Option Cause
  /-- The status register `result` (R25): absent until Halt writes it. -/
  result : Option Int
  /-- The sequence of all Output effects, oldest first (R26). -/
  outlog : List Int
  /-- The input channel (R27): the values the host has made available and the engine has not taken, next first. -/
  inChan : List Int
  /-- The output channel (R27): the values delivered to the host since reset, oldest first. -/
  outChan : List Int
  deriving DecidableEq, Repr

/-- Why a state has no step. The eight faults of R160 are no such stops: they are next states with `run = Faulted`. -/
inductive Fault where
  /-- Raised by `step` on a state with `run = Halted`: R100 gives a terminal state no cycle. Safe: no state follows. -/
  | engineHalted
  /-- Raised by `step` on a state with `run = Faulted`: R100 gives a terminal state no cycle. Safe: no state follows. -/
  | engineFaulted
  /-- Raised by Input when the input channel holds no value: R101 and R124 give the Input cycle no step until the host
  supplies one, and leave the state as it is. Safe: the run is not over, and no state follows. -/
  | waitingForInput
  deriving DecidableEq, Repr

/-- Why an instruction has no meaning here. -/
inductive Refusal where
  /-- An instruction the model does not give a meaning. Raised by no arm of `exec`: every instruction has its meaning. Safe. -/
  | notModelled (mnemonic : String)
  deriving DecidableEq, Repr

/-- The state after reset for a given width, memory and queue of inputs (R31, R190): pc 0, Running, `outlog` and the output
channel empty, `err` and `result` absent (log entry 3). -/
def State.atReset (width : CellWidth) (memLen : Nat) (mem : Memory) (inputs : List Int) : State where
  width := width
  memLen := memLen
  mem := mem
  pc := 0
  run := .running
  err := none
  result := none
  outlog := []
  inChan := inputs
  outChan := []

/-- The machine right after reset with no image placed: the parameters of Config, every cell 0, no input queued (log entries 1,
2, 4). `State.boot` of Machine/HostPort.lean is the state after reset for an image. -/
def State.reset : State := State.atReset Config.resetWidth Config.resetMemLen [] []

end Sys2Proof.Machine
end

