-- ==== Sys2Proof/Machine/Memory.lean ====
section
/-! DEFINITION. The operations over memory as data: read a cell, write a cell, the canonical form, an image as memory. -/

namespace Sys2Proof.Machine

/-- What a cell that is not listed holds: 0. It fixes the form of the list and the image of `State.reset` alone (log entry 2):
a loaded image gives every cell its value (R31). -/
def Memory.unlisted : Int := 0

/-- The cell at address `a`. -/
def Memory.get : Memory → Nat → Int
  | [], _ => Memory.unlisted
  | (k, v) :: rest, a => if k = a then v else Memory.get rest a

/-- `(a, v)` put at its place in the rising list, instead of an entry for `a` where there is one. -/
def Memory.insert : Memory → Nat → Int → Memory
  | [], a, v => [(a, v)]
  | (k, x) :: rest, a, v =>
    if a < k then (a, v) :: (k, x) :: rest
    else if k = a then (a, v) :: rest
    else (k, x) :: Memory.insert rest a v

/-- Int `a` set to `v`, in the canonical form: the value of an unlisted cell removes the entry. -/
def Memory.set (m : Memory) (a : Nat) (v : Int) : Memory :=
  if v = Memory.unlisted then m.filter (fun p => decide (p.1 ≠ a)) else Memory.insert m a v

/-- The canonical form: addresses strictly rising, no entry equal to what an unlisted cell holds. -/
abbrev Memory.wf (m : Memory) : Prop :=
  m.Pairwise (fun p q => p.1 < q.1) ∧ ∀ p ∈ m, p.2 ≠ Memory.unlisted

/-- The image's cells from address `k` on (R192). -/
def Memory.ofImageFrom (k : Nat) : List Int → Memory
  | [] => []
  | v :: vs => if v = Memory.unlisted then Memory.ofImageFrom (k + 1) vs else (k, v) :: Memory.ofImageFrom (k + 1) vs

/-- The memory that equals the image, cell for cell (R31). -/
def Memory.ofImage (image : List Int) : Memory := Memory.ofImageFrom 0 image

end Sys2Proof.Machine
end

