-- ==== Sys2Proof/Machine/Width.lean ====
section
/-! DEFINITION. The range of a cell and the bounds on the parameters (R6, R7). -/

namespace Sys2Proof

/-- `v` lies in `[INT_MIN, INT_MAX]` (R6): INT_MIN = -2^(W-1), INT_MAX = 2^(W-1) - 1; every integer fits an unbounded cell. -/
def CellWidth.fits : CellWidth → Int → Bool
  | .bits w, v => decide (-(2 ^ (w - 1)) ≤ v ∧ v ≤ 2 ^ (w - 1) - 1)
  | .unbounded, _ => true

/-- R6: `W >= 18`, or unbounded. -/
def CellWidth.legal : CellWidth → Bool
  | .bits w => decide (18 ≤ w)
  | .unbounded => true

/-- R7: `1 <= N <= INT_MAX - 3`, said as: `N + 3` fits a cell. -/
def CellWidth.memLenOk (width : CellWidth) (n : Nat) : Bool :=
  decide (1 ≤ n) && width.fits (n + 3)

end Sys2Proof
end

