-- ==== Sys2Proof/Machine/Ops.lean ====
section
/-! DEFINITION. The named operations of the machine: cell access, the pc sequencer, the port, fault entry, halting, and the
end of a cycle. There is no return from a fault (R172), so no operation for one. -/

namespace Sys2Proof.Machine

/-- R40: the address is valid, `0 <= a < N`. -/
def State.inBounds (s : State) (a : Int) : Bool := decide (0 ≤ a ∧ a < (s.memLen : Int))

/-- `MemRead(a, 1)` of R11; called for valid addresses only. -/
def State.memRead (s : State) (a : Int) : Int := s.mem.get a.toNat

/-- `MemWrite(a, 1, v)` of R11; called for valid addresses only. -/
def State.memWrite (s : State) (a v : Int) : State := { s with mem := s.mem.set a.toNat v }

/-- R95 case (a): sequential advance by the instruction's length. -/
def State.advance (s : State) (len : Nat) : State := { s with pc := s.pc + (len : Int) }

/-- R95 case (b): the pc loaded with a jump target, any integer, not checked now. -/
def State.jumpTo (s : State) (t : Int) : State := { s with pc := t }

/-- R150 with R95 case (c): `result` takes cell 0, `run` becomes Halted, the pc does not move (D10, log entry 13). -/
def State.halt (s : State) : State := { s with result := some (s.memRead 0), run := .halted }

/-- The input channel replaced: what the engine leaves in it after taking a value (R27). -/
def State.withInputs (s : State) (inputs : List Int) : State := { s with inChan := inputs }

/-- `In()` of R11: the next value of the input channel and the state without it; none while the host has supplied nothing. -/
def State.takeInput (s : State) : Option (Int × State) :=
  match s.inChan with
  | [] => none
  | v :: rest => some (v, s.withInputs rest)

/-- `Out(v)` of R11: the value on the output channel and at the end of `outlog` (R26). -/
def State.deliver (s : State) (v : Int) : State := { s with outlog := s.outlog ++ [v], outChan := s.outChan ++ [v] }

/-- Fault entry (R170): `run` and `err` written, nothing else. -/
def State.raise (s : State) (c : Cause) : State := { s with run := .faulted, err := some c }

/-- The end of EXECUTE and ADVANCE (R94): the next state, or the fault entry of the first `raise`, over the state `s` that
holds what had been done before it. -/
def State.complete (s : State) (r : Except Cause State) : Host.Outcome State Fault Refusal :=
  match r with
  | .ok t => .next t
  | .error c => .next (s.raise c)

end Sys2Proof.Machine

namespace Sys2Proof

/-- R160: the numeric code of a cause (D8). -/
def Cause.code : Cause → Nat
  | .malformedWord => 1
  | .unknownOpcode _ => 2
  | .invalidAddressingMode _ => 3
  | .truncatedInstruction => 4
  | .outOfBounds _ => 5
  | .writeToImmediate => 6
  | .programCounterOutOfBounds => 7
  | .arithmeticOverflow => 8

/-- R160: the value `err.info` takes with a cause. -/
def Cause.info : Cause → Int
  | .malformedWord => 0
  | .unknownOpcode op => (op : Int)
  | .invalidAddressingMode d => (d : Int)
  | .truncatedInstruction => 0
  | .outOfBounds a => a
  | .writeToImmediate => 0
  | .programCounterOutOfBounds => 0
  | .arithmeticOverflow => 0

end Sys2Proof

namespace Sys2Proof.Machine

/-- R23: the encoding of `run` (D9). -/
def RunState.code : RunState → Nat
  | .running => 0
  | .halted => 1
  | .faulted => 2

/-- The cells put at consecutive addresses from `a` on. -/
def State.placeCells (s : State) (a : Int) : List Int → State
  | [] => s
  | v :: vs => (s.memWrite a v).placeCells (a + 1) vs

end Sys2Proof.Machine
end

