-- ==== Sys2Proof/Machine/Flags.lean ====
section
/-! DEFINITION. What stands in the place of flags. The machine has none (R28): the comparisons write a truth value to memory,
and the jumps test an operand against zero. -/

namespace Sys2Proof.Machine

/-- R142: a truth value as a cell, exactly 1 or 0. -/
def truth (b : Bool) : Int := if b then 1 else 0

/-- R140: signed less-than. -/
def isLess (x y : Int) : Bool := decide (x < y)

/-- R141: equality of the two integers. -/
def isEqual (x y : Int) : Bool := decide (x = y)

/-- R130: any value but zero is true. -/
def condTrue (c : Int) : Bool := decide (c ≠ 0)

/-- R131: exactly zero is false. -/
def condFalse (c : Int) : Bool := decide (c = 0)

end Sys2Proof.Machine
end

