-- ==== Sys2Proof/Machine/Operands.lean ====
section
/-! DEFINITION. The operand resolver: the only load and store paths of the machine (R96, R97). -/

namespace Sys2Proof.Machine

/-- `ReadOperand` (R96): the literal, or the cell at the address, or OutOfBounds before memory is touched (R45). -/
def readOperand (s : State) : Operand → Except Cause Int
  | .imm v => .ok v
  | .pos a => if s.inBounds a then .ok (s.memRead a) else .error (.outOfBounds a)

/-- `WriteOperand` (R97): one cell written through a Position; WriteToImmediate or OutOfBounds otherwise. -/
def writeOperand (s : State) (operand : Operand) (value : Int) : Except Cause State :=
  match operand with
  | .imm _ => .error .writeToImmediate
  | .pos a => if s.inBounds a then .ok (s.memWrite a value) else .error (.outOfBounds a)

end Sys2Proof.Machine
end

