-- ==== Sys2Proof/Machine/Alu.lean ====
section
/-! DEFINITION. The four operations of the ALU (R112, R113) and the cycle of a three-operand instruction (R98). -/

namespace Sys2Proof.Machine

/-- R113: an exact result, or ArithmeticOverflow where it does not fit a cell (D2, log entry 6). -/
def narrow (width : CellWidth) (r : Int) : Except Cause Int :=
  if width.fits r then .ok r else .error .arithmeticOverflow

/-- R110: the exact sum, narrowed. -/
def aluSum (width : CellWidth) (x y : Int) : Except Cause Int := narrow width (x + y)

/-- R111: the exact product, narrowed. -/
def aluProduct (width : CellWidth) (x y : Int) : Except Cause Int := narrow width (x * y)

/-- R140: 1 if `x < y`, else 0; no overflow. -/
def aluLess (x y : Int) : Except Cause Int := .ok (truth (isLess x y))

/-- R141: 1 if `x = y`, else 0; no overflow. -/
def aluEqual (x y : Int) : Except Cause Int := .ok (truth (isEqual x y))

/-- The cycle of format T (R98, D13): read operand 1, read operand 2, the ALU, write operand 3, advance by 4; the first
`raise` ends it. -/
def threeOperand (alu : Int → Int → Except Cause Int) (a b dest : Operand) (s : State) : Except Cause State :=
  match readOperand s a with
  | .error c => .error c
  | .ok x =>
    match readOperand s b with
    | .error c => .error c
    | .ok y =>
      match alu x y with
      | .error c => .error c
      | .ok r =>
        match writeOperand s dest r with
        | .error c => .error c
        | .ok t => .ok (t.advance 4)

end Sys2Proof.Machine
end

