-- ==== Sys2Proof/Machine/Arithmetic.lean ====
section
/-! DEFINITION. Add and Multiply (`41_arithmetic.md`). -/

namespace Sys2Proof.Machine

/-- Add (R110). -/
def execAdd (a b dest : Operand) (s : State) : Host.Outcome State Fault Refusal :=
  s.complete (threeOperand (aluSum s.width) a b dest s)

/-- Multiply (R111). -/
def execMultiply (a b dest : Operand) (s : State) : Host.Outcome State Fault Refusal :=
  s.complete (threeOperand (aluProduct s.width) a b dest s)

end Sys2Proof.Machine
end

