-- ==== Sys2Proof/Machine/Compare.lean ====
section
/-! DEFINITION. LessThan and Equal (`44_compare.md`). -/

namespace Sys2Proof.Machine

/-- LessThan (R140). -/
def execLessThan (a b dest : Operand) (s : State) : Host.Outcome State Fault Refusal :=
  s.complete (threeOperand aluLess a b dest s)

/-- Equal (R141). -/
def execEqual (a b dest : Operand) (s : State) : Host.Outcome State Fault Refusal :=
  s.complete (threeOperand aluEqual a b dest s)

end Sys2Proof.Machine
end

