-- ==== Sys2Proof/Machine/Control.lean ====
section
/-! DEFINITION. Halt (`45_halt.md`). -/

namespace Sys2Proof.Machine

/-- Halt (R150): no fault in EXECUTE. -/
def execHalt (s : State) : Host.Outcome State Fault Refusal := s.complete (.ok s.halt)

end Sys2Proof.Machine
end

