-- ==== Sys2Proof/Machine/InputOutput.lean ====
section
/-! DEFINITION. Input and Output (`42_io.md`). Their operand is always an address (R122). -/

namespace Sys2Proof.Machine

/-- Input (R120): wait for a value (R124), take it, then write it; a bad address faults with the value taken (D12, log entry
11). -/
def execInput (dest : Int) (s : State) : Host.Outcome State Fault Refusal :=
  match s.takeInput with
  | none => .fault .waitingForInput
  | some (v, s1) =>
    match writeOperand s1 (.pos dest) v with
    | .error c => s1.complete (.error c)
    | .ok t => s1.complete (.ok (t.advance 2))

/-- Output (R121): read the cell, deliver it, advance; it never waits. -/
def execOutput (src : Int) (s : State) : Host.Outcome State Fault Refusal :=
  match readOperand s (.pos src) with
  | .error c => s.complete (.error c)
  | .ok v => s.complete (.ok ((s.deliver v).advance 2))

end Sys2Proof.Machine
end

