-- ==== Sys2Proof/Machine/Jumps.lean ====
section
/-! DEFINITION. JumpIfTrue and JumpIfFalse (`43_jumps.md`). -/

namespace Sys2Proof.Machine

/-- The cycle of format J (R98, D11, log entry 10): read the condition; the target is read only when the jump is taken. -/
def conditionalJump (taken : Int → Bool) (cond target : Operand) (s : State) : Except Cause State :=
  match readOperand s cond with
  | .error e => .error e
  | .ok c =>
    if taken c then
      match readOperand s target with
      | .error e => .error e
      | .ok t => .ok (s.jumpTo t)
    else .ok (s.advance 3)

/-- JumpIfTrue (R130). -/
def execJumpIfTrue (cond target : Operand) (s : State) : Host.Outcome State Fault Refusal :=
  s.complete (conditionalJump condTrue cond target s)

/-- JumpIfFalse (R131). -/
def execJumpIfFalse (cond target : Operand) (s : State) : Host.Outcome State Fault Refusal :=
  s.complete (conditionalJump condFalse cond target s)

end Sys2Proof.Machine
end

