-- ==== Sys2Proof/Syntax.lean ====
section
/-! DEFINITION. The instructions: the document's Command, one constructor for each row of the opcode table (R72, R93). -/

namespace Sys2Proof

/-- A decoded instruction. Formats T and J carry tagged operands (R69), format A a raw address (R70), format Z nothing. Mode
digits the instruction ignores (R70, R71) are no part of it. -/
inductive Instr where
  | add (a b dest : Operand)
  | multiply (a b dest : Operand)
  | input (dest : Int)
  | output (src : Int)
  | jumpIfTrue (cond target : Operand)
  | jumpIfFalse (cond target : Operand)
  | lessThan (a b dest : Operand)
  | equal (a b dest : Operand)
  | halt
  deriving DecidableEq, Repr

end Sys2Proof
end

