-- ==== Sys2Proof/Machine/Dispatch.lean ====
section
/-! DEFINITION. EXECUTE and ADVANCE of a decoded instruction (R94, R95): one arm per row of the opcode table. -/

namespace Sys2Proof.Machine

def exec (i : Instr) (s : State) : Host.Outcome State Fault Refusal :=
  match i with
  | .add a b dest => Sys2Proof.Machine.execAdd a b dest s
  | .multiply a b dest => Sys2Proof.Machine.execMultiply a b dest s
  | .input dest => Sys2Proof.Machine.execInput dest s
  | .output src => Sys2Proof.Machine.execOutput src s
  | .jumpIfTrue cond target => Sys2Proof.Machine.execJumpIfTrue cond target s
  | .jumpIfFalse cond target => Sys2Proof.Machine.execJumpIfFalse cond target s
  | .lessThan a b dest => Sys2Proof.Machine.execLessThan a b dest s
  | .equal a b dest => Sys2Proof.Machine.execEqual a b dest s
  | .halt => Sys2Proof.Machine.execHalt s

end Sys2Proof.Machine
end

