-- ==== Sys2Proof/WellFormed.lean ====
section
/-! DEFINITION. Which instructions memory can hold: every operand cell is a cell value (R21, R69). -/

namespace Sys2Proof

/-- The operand cell of a tagged operand, whatever its mode (R69). -/
def Operand.cell : Operand → Int
  | .imm v => v
  | .pos a => a

/-- The operand cells of an instruction in operand order (R60). -/
def Instr.cells : Instr → List Int
  | .add a b dest => [a.cell, b.cell, dest.cell]
  | .multiply a b dest => [a.cell, b.cell, dest.cell]
  | .input dest => [dest]
  | .output src => [src]
  | .jumpIfTrue cond target => [cond.cell, target.cell]
  | .jumpIfFalse cond target => [cond.cell, target.cell]
  | .lessThan a b dest => [a.cell, b.cell, dest.cell]
  | .equal a b dest => [a.cell, b.cell, dest.cell]
  | .halt => []

/-- Every operand cell lies in `[INT_MIN, INT_MAX]`. An Immediate destination is well formed: it decodes and faults when it
is written (R73, R97). -/
def Instr.wellFormed (width : CellWidth) (i : Instr) : Bool := i.cells.all width.fits

end Sys2Proof
end

