-- ==== Sys2Proof/Decode.lean ====
section
/-! DEFINITION. The decoder (R62 to R71), total on any window of cells and rejecting by cause, and the encoder (R79). -/

namespace Sys2Proof

/-! ## The opcode map -/

/-- R72: the nine rows, opcode and operation. -/
def opTable : List (Nat × Op) :=
  [(1, .add), (2, .multiply), (3, .input), (4, .output), (5, .jumpIfTrue), (6, .jumpIfFalse), (7, .lessThan), (8, .equal),
   (99, .halt)]

/-- R66: the operation of an opcode, or none where it is undefined. -/
def lookupOp (op : Nat) : Option Op := (opTable.find? (fun row => row.1 == op)).map Prod.snd

/-- R72: the opcode of an operation. -/
def Op.code : Op → Nat
  | .add => 1
  | .multiply => 2
  | .input => 3
  | .output => 4
  | .jumpIfTrue => 5
  | .jumpIfFalse => 6
  | .lessThan => 7
  | .equal => 8
  | .halt => 99

/-- R67: the instruction length in cells, a function of the opcode alone. -/
def Op.length : Op → Nat
  | .add => 4
  | .multiply => 4
  | .input => 2
  | .output => 2
  | .jumpIfTrue => 3
  | .jumpIfFalse => 3
  | .lessThan => 4
  | .equal => 4
  | .halt => 1

/-! ## The decoder -/

/-- R10: decimal digit `i` of `w`, digit 0 the units. -/
def digit (i w : Nat) : Nat := w / 10 ^ i % 10

/-- R63: the range check of the word and the extraction of its fields. A word of 100000 or more is malformed by the spec's
decision D4 (log entry 7). -/
def splitWord (word : Int) : Except Cause Fields :=
  if word < 0 then .error .malformedWord
  else if 100000 ≤ word then .error .malformedWord
  else .ok ⟨word.toNat % 100, digit 2 word.toNat, digit 3 word.toNat, digit 4 word.toNat⟩

/-- R64: every mode digit is 0 or 1, whatever the opcode; the most significant bad one is reported (D7). -/
def checkModes (f : Fields) : Except Cause Fields :=
  if 1 < f.d3 then .error (.invalidAddressingMode f.d3)
  else if 1 < f.d2 then .error (.invalidAddressingMode f.d2)
  else if 1 < f.d1 then .error (.invalidAddressingMode f.d1)
  else .ok f

/-- R92, DECODE: R63, then R64. -/
def decodeWord (word : Int) : Except Cause Fields :=
  match splitWord word with
  | .error c => .error c
  | .ok f => checkModes f

/-- R69: the operand cell tagged with its mode digit. -/
def tag (d : Nat) (v : Int) : Operand := if d = 1 then .imm v else .pos v

/-- R69 to R71: the Command, from the operation, the mode digits and the operand cells. Input and Output take the raw
address; digits no operand uses are dropped (D5, log entry 8). -/
def Op.assemble (op : Op) (f : Fields) (c1 c2 c3 : Int) : Instr :=
  match op with
  | .add => .add (tag f.d1 c1) (tag f.d2 c2) (tag f.d3 c3)
  | .multiply => .multiply (tag f.d1 c1) (tag f.d2 c2) (tag f.d3 c3)
  | .input => .input c1
  | .output => .output c1
  | .jumpIfTrue => .jumpIfTrue (tag f.d1 c1) (tag f.d2 c2)
  | .jumpIfFalse => .jumpIfFalse (tag f.d1 c1) (tag f.d2 c2)
  | .lessThan => .lessThan (tag f.d1 c1) (tag f.d2 c2) (tag f.d3 c3)
  | .equal => .equal (tag f.d1 c1) (tag f.d2 c2) (tag f.d3 c3)
  | .halt => .halt

/-- R93, RESOLVE, from the fields of the word and the window: R66, then R67 (a window shorter than the length is truncated),
then the operands. -/
def resolve (f : Fields) (window : List Int) : Except Cause Instr :=
  match lookupOp f.op with
  | none => .error (.unknownOpcode f.op)
  | some op =>
    if window.length < op.length then .error .truncatedInstruction
    else .ok (op.assemble f (window.getD 1 0) (window.getD 2 0) (window.getD 3 0))

/-- DECODE and RESOLVE of an instruction window (R92, R93). The fetch never gives an empty window; by C6 it would be the pc
out of bounds, never a truncated instruction. -/
def decode (window : List Int) : Except Cause Instr :=
  match window with
  | [] => .error .programCounterOutOfBounds
  | word :: _ =>
    match decodeWord word with
    | .error c => .error c
    | .ok f => resolve f window

/-! ## The encoder -/

/-- R79: the instruction word of four fields. -/
def encodeWord (f : Fields) : Int := 10000 * f.d3 + 1000 * f.d2 + 100 * f.d1 + f.op

/-- R69: the mode digit of a tagged operand. -/
def Operand.mode : Operand → Nat
  | .imm _ => 1
  | .pos _ => 0

/-- The operation of an instruction. -/
def Instr.op : Instr → Op
  | .add _ _ _ => .add
  | .multiply _ _ _ => .multiply
  | .input _ => .input
  | .output _ => .output
  | .jumpIfTrue _ _ => .jumpIfTrue
  | .jumpIfFalse _ _ => .jumpIfFalse
  | .lessThan _ _ _ => .lessThan
  | .equal _ _ _ => .equal
  | .halt => .halt

/-- R67: the length of an instruction in cells. -/
def Instr.length (i : Instr) : Nat := i.op.length

/-- The fields of an instruction's canonical word: every ignored mode digit is 0 (R79). -/
def Instr.fields : Instr → Fields
  | .add a b dest => ⟨1, a.mode, b.mode, dest.mode⟩
  | .multiply a b dest => ⟨2, a.mode, b.mode, dest.mode⟩
  | .input _ => ⟨3, 0, 0, 0⟩
  | .output _ => ⟨4, 0, 0, 0⟩
  | .jumpIfTrue cond target => ⟨5, cond.mode, target.mode, 0⟩
  | .jumpIfFalse cond target => ⟨6, cond.mode, target.mode, 0⟩
  | .lessThan a b dest => ⟨7, a.mode, b.mode, dest.mode⟩
  | .equal a b dest => ⟨8, a.mode, b.mode, dest.mode⟩
  | .halt => ⟨99, 0, 0, 0⟩

/-- R60, R79: the canonical word, then the operand cells. -/
def encode (i : Instr) : List Int := encodeWord i.fields :: i.cells

/-! ## The host's reading of a table word -/

/-- The signed value of the `k`-th 64-bit cell of a number whose low bits are the first cell. The architecture has no bits
(R10, R41): this serves the host's numbering of opcode-table words alone (log entry 17). -/
def tableCell (k w : Nat) : Int :=
  let u : Nat := w / 2 ^ (64 * k) % 2 ^ 64
  if u < 2 ^ 63 then (u : Int) else (u : Int) - 2 ^ 64

/-- The four cells of an instruction whose `nbits` low bits are `w` and whose further bits are 0 (log entry 17). -/
def tableWindow (nbits w : Nat) : List Int :=
  let v := w % 2 ^ nbits
  [tableCell 0 v, tableCell 1 v, tableCell 2 v, tableCell 3 v]

/-- The instruction the decoder reads from an opcode-table word. -/
def decodeTableWord (nbits w : Nat) : Option Instr :=
  match decode (tableWindow nbits w) with
  | .ok i => some i
  | .error _ => none

end Sys2Proof
end

