-- ==== Sys2Proof/Machine/Fetch.lean ====
section
/-! DEFINITION. FETCH (R91), then DECODE and RESOLVE of the latched window; and the placing of an opcode-table word where the
fetch reads it. -/

namespace Sys2Proof.Machine

/-- The instruction window (R91): `IW[k] = mem[pc + k]` for `k < min(4, N - pc)`, latched before anything is written (R49). -/
def State.window (s : State) : List Int :=
  (List.range (min 4 (s.memLen - s.pc.toNat))).map (fun (k : Nat) => s.memRead (s.pc + (k : Int)))

/-- FETCH, DECODE, RESOLVE (R90 phases 1 to 3): the pc check first, then the decoder on the window. -/
def State.fetch (s : State) : Except Cause Instr :=
  if s.inBounds s.pc then decode s.window else .error .programCounterOutOfBounds

/-- `s` with the cells of an opcode-table word at the pc and what the next step needs to run them: memory long enough, the pc
not negative, the engine Running, and for an Input one value available (log entry 18). -/
def State.withTableWord (s : State) (nbits w : Nat) : State :=
  let base : Int := if s.pc < 0 then 0 else s.pc
  let needsInput : Bool :=
    match decodeTableWord nbits w with
    | some (.input _) => s.inChan.isEmpty
    | _ => false
  let s1 : State :=
    { s with
      pc := base
      memLen := max s.memLen (base.toNat + 4)
      run := .running
      inChan := if needsInput then [0] else s.inChan }
  s1.placeCells base (tableWindow nbits w)

end Sys2Proof.Machine
end

