-- ==== Sys2Proof/Machine/Cycle.lean ====
section
/-! DEFINITION. One cycle of the engine (R90). -/

namespace Sys2Proof.Machine

/-- R90, R100: while Running, fetch, decode, resolve, execute and advance, a `raise` before EXECUTE being the fault entry; in a
terminal state there is no cycle. -/
def cycle (s : State) : Host.Outcome State Fault Refusal :=
  match s.run with
  | .halted => .fault .engineHalted
  | .faulted => .fault .engineFaulted
  | .running =>
    match s.fetch with
    | .error c => .next (s.raise c)
    | .ok i => exec i s

end Sys2Proof.Machine
end

