-- ==== Sys2Proof/Machine/HostPort.lean ====
section
/-! DEFINITION. The host's transactions (R200): load, reset, input, and what it may read. The engine's step uses none of them. -/

namespace Sys2Proof.Machine

/-- The state after the image is loaded and reset released (R31, R190), with the values the host has queued. It holds nothing of
an earlier run. -/
def State.boot (width : CellWidth) (image inputs : List Int) : State :=
  State.atReset width image.length (Memory.ofImage image) inputs

/-- The loader's contract (R6, R7, R192, D23): a legal width, `1 <= N <= INT_MAX - 3`, every image value and every queued
input a cell value (D24); otherwise no machine exists. The checks of the width and of the queue are DEDUCED (log entry 15). -/
def State.load (width : CellWidth) (image inputs : List Int) : Option State :=
  if width.legal && width.memLenOk image.length && image.all width.fits && inputs.all width.fits then
    some (State.boot width image inputs)
  else none

/-- Reset by a host that does not reload (R190): memory keeps its contents, everything else is as after reset. A queued value
that is no cell value cannot be sent (R27, D24, log entry 15). -/
def State.resetWithoutReload (s : State) (inputs : List Int) : Option State :=
  if inputs.all s.width.fits then some (State.atReset s.width s.memLen s.mem inputs) else none

/-- The host makes one more input value available (R27, R200); a value that is no cell value cannot be sent (D24). -/
def State.supplyInput (s : State) (v : Int) : Option State :=
  if s.width.fits v then some { s with inChan := s.inChan ++ [v] } else none

/-- The host reads `run` (R23). -/
def State.runCode (s : State) : Nat := s.run.code

/-- The host reads `err.code` (R24): meaningful only while Faulted, absent otherwise. -/
def State.errCode (s : State) : Option Nat := s.err.map Cause.code

/-- The host reads `err.info` (R24). -/
def State.errInfo (s : State) : Option Int := s.err.map Cause.info

/-- The whole of memory as the sequence the host receives (R52, R151). -/
def State.finalMemory (s : State) : List Int := (List.range s.memLen).map (fun (k : Nat) => s.memRead (k : Int))

/-- What `execute` hands to the host when a run is over (R151, R170, R200). -/
inductive Report where
  | halted (finalValue : Int) (finalMemory outputs : List Int)
  | faulted (cause : Cause)
  deriving DecidableEq, Repr

/-- The end of a run (R201): none while Running. -/
def State.report (s : State) : Option Report :=
  match s.run with
  | .running => none
  | .halted => s.result.map (fun v => .halted v s.finalMemory s.outlog)
  | .faulted => s.err.map Report.faulted

end Sys2Proof.Machine
end

