-- ==== Sys2Proof/Safety.lean ====
section
/-! DEFINITION. What holds of every state of a run, what a successful run is, and the spec's own list of fault conditions in
order of priority, in the terms claims use. -/

namespace Sys2Proof.Safety

open Sys2Proof.Machine

/-- The parameters are ones R6 and R7 allow. -/
abbrev ParamsLegal (s : State) : Prop := s.width.legal = true ∧ s.width.memLenOk s.memLen = true

/-- Memory is in its canonical form, holds no cell past `N - 1`, and every cell is a cell value (R21). -/
abbrev MemLegal (s : State) : Prop :=
  Memory.wf s.mem ∧ ∀ p ∈ s.mem, p.1 < s.memLen ∧ s.width.fits p.2 = true

/-- The pc and every value on the channels and in `outlog` is a cell value (R22, R26, R27, D24). -/
abbrev ValuesLegal (s : State) : Prop :=
  s.width.fits s.pc = true ∧ (∀ v ∈ s.inChan, s.width.fits v = true) ∧ (∀ v ∈ s.outlog, s.width.fits v = true)

/-- The output channel and `outlog` carry the same values in the same order (R26, R50). -/
abbrev OutputsAgree (s : State) : Prop := s.outChan = s.outlog

/-- `err` holds a cause exactly while Faulted, and `result` holds cell 0 exactly while Halted (R24, R25). -/
abbrev StatusAgrees (s : State) : Prop :=
  (s.err.isSome = true ↔ s.run = .faulted) ∧ s.result = if s.run = .halted then some (s.memRead 0) else none

/-- The invariant of a run: what R21 to R27 and R32 say of the state. -/
structure Inv (s : State) : Prop where
  params : ParamsLegal s
  mem : MemLegal s
  values : ValuesLegal s
  outputs : OutputsAgree s
  status : StatusAgrees s

/-- R201: success is Halted. -/
abbrev Succeeded (s : State) : Prop := s.run = .halted

/-! ## What an instruction stores to, and what a program can see -/

/-- The address a tagged operand writes: a Position's; an Immediate writes nothing (R97). -/
def writtenAddress : Operand → Option Int
  | .imm _ => none
  | .pos a => some a

/-- The one address an instruction stores to, where it stores (R51). -/
def storeAddress : Instr → Option Int
  | .add _ _ dest => writtenAddress dest
  | .multiply _ _ dest => writtenAddress dest
  | .input dest => some dest
  | .output _ => none
  | .jumpIfTrue _ _ => none
  | .jumpIfFalse _ _ => none
  | .lessThan _ _ dest => writtenAddress dest
  | .equal _ _ dest => writtenAddress dest
  | .halt => none

/-- The instruction has both operands of an ALU operation readable, with these values. -/
def Reads (s : State) (a b : Operand) (x y : Int) : Prop := readOperand s a = .ok x ∧ readOperand s b = .ok y

/-- The instruction stores `r` at the address `d`: what each of the five storing instructions computes (R51, R110, R111, R120,
R140, R141), where it raises no fault before its write. -/
def Stores (s : State) (d r : Int) : Instr → Prop
  | .add a b dest => dest = .pos d ∧ (∃ x y, Reads s a b x y ∧ r = x + y) ∧ s.width.fits r = true
  | .multiply a b dest => dest = .pos d ∧ (∃ x y, Reads s a b x y ∧ r = x * y) ∧ s.width.fits r = true
  | .input dest => dest = d ∧ ∃ rest, s.inChan = r :: rest
  | .output _ => False
  | .jumpIfTrue _ _ => False
  | .jumpIfFalse _ _ => False
  | .lessThan a b dest => dest = .pos d ∧ ∃ x y, Reads s a b x y ∧ r = if x < y then 1 else 0
  | .equal a b dest => dest = .pos d ∧ ∃ x y, Reads s a b x y ∧ r = if x = y then 1 else 0
  | .halt => False

/-- Two states that differ in nothing an instruction can read: `err`, `result`, `outlog` and the output channel are the host's
alone (R23 to R26, R175). -/
abbrev SameProgramView (s t : State) : Prop :=
  s.width = t.width ∧ s.memLen = t.memLen ∧ s.mem = t.mem ∧ s.pc = t.pc ∧ s.run = t.run ∧ s.inChan = t.inChan

/-- R72: the 72 words that decode to an instruction. -/
def legalWords : List Int :=
  ([0, 1] : List Int).flatMap fun d3 => ([0, 1] : List Int).flatMap fun d2 => ([0, 1] : List Int).flatMap fun d1 =>
    ([1, 2, 3, 4, 5, 6, 7, 8, 99] : List Int).map fun op => 10000 * d3 + 1000 * d2 + 100 * d1 + op

/-! ## The fault conditions, from the words of R169 -/

/-- The cell at `pc + k`: the instruction word for `k = 0`, the operand cells after it (R60). -/
def cellAt (s : State) (k : Int) : Int := s.memRead (s.pc + k)

/-- The decimal fields of the word at the pc (R61). -/
def opcodeAt (s : State) : Int := cellAt s 0 % 100

def digitAt (s : State) (i : Nat) : Int := cellAt s 0 / 10 ^ i % 10

/-- R67: the length of a defined opcode. -/
def lengthAt (s : State) : Int :=
  if opcodeAt s = 99 then 1
  else if opcodeAt s = 3 ∨ opcodeAt s = 4 then 2
  else if opcodeAt s = 5 ∨ opcodeAt s = 6 then 3
  else 4

/-- The value operand `k` of formats T and J reads as: the cell itself where its mode digit is 1, else the cell it addresses. -/
def operandAt (s : State) (k : Nat) : Int :=
  if digitAt s (k + 1) = 1 then cellAt s k else s.memRead (cellAt s k)

/-- Operand `k` is a Position whose address is outside memory. -/
def badAddress (s : State) (k : Nat) : Bool := decide (digitAt s (k + 1) = 0) && !s.inBounds (cellAt s k)

/-- The opcodes of format T. -/
def isFormatT (s : State) : Bool := decide (opcodeAt s = 1 ∨ opcodeAt s = 2 ∨ opcodeAt s = 7 ∨ opcodeAt s = 8)

/-- The opcodes of format J. -/
def isFormatJ (s : State) : Bool := decide (opcodeAt s = 5 ∨ opcodeAt s = 6)

/-- The jump at the pc is taken (R130, R131). -/
def jumpTaken (s : State) : Bool :=
  decide (opcodeAt s = 5 ∧ operandAt s 1 ≠ 0 ∨ opcodeAt s = 6 ∧ operandAt s 1 = 0)

/-- The exact result of Add or Multiply does not fit a cell (R168). -/
def resultOverflows (s : State) : Bool :=
  decide (opcodeAt s = 1) && !s.width.fits (operandAt s 1 + operandAt s 2) ||
    decide (opcodeAt s = 2) && !s.width.fits (operandAt s 1 * operandAt s 2)

/-- R169, in its own order: each condition with the cause it raises. Input's and Output's address is operand 1 whatever its
mode digit (R70); for Input it is the write. -/
def faultConditions (s : State) : List (Bool × Cause) :=
  [(!s.inBounds s.pc, .programCounterOutOfBounds),
   (decide (cellAt s 0 < 0 ∨ 100000 ≤ cellAt s 0), .malformedWord),
   (decide (1 < digitAt s 4), .invalidAddressingMode (digitAt s 4).toNat),
   (decide (1 < digitAt s 3), .invalidAddressingMode (digitAt s 3).toNat),
   (decide (1 < digitAt s 2), .invalidAddressingMode (digitAt s 2).toNat),
   (decide (opcodeAt s = 0 ∨ 9 ≤ opcodeAt s ∧ opcodeAt s ≤ 98), .unknownOpcode (opcodeAt s).toNat),
   (decide ((s.memLen : Int) < s.pc + lengthAt s), .truncatedInstruction),
   ((isFormatT s || isFormatJ s) && badAddress s 1, .outOfBounds (cellAt s 1)),
   (decide (opcodeAt s = 4) && !s.inBounds (cellAt s 1), .outOfBounds (cellAt s 1)),
   ((isFormatT s || jumpTaken s) && badAddress s 2, .outOfBounds (cellAt s 2)),
   (resultOverflows s, .arithmeticOverflow),
   (isFormatT s && decide (digitAt s 4 = 1), .writeToImmediate),
   (isFormatT s && badAddress s 3, .outOfBounds (cellAt s 3)),
   (decide (opcodeAt s = 3) && !s.inBounds (cellAt s 1), .outOfBounds (cellAt s 1))]

/-- R169: the one fault an instruction reports, the first whose condition holds. -/
def firstFault (s : State) : Option Cause := ((faultConditions s).find? Prod.fst).map Prod.snd

end Sys2Proof.Safety
end

