-- ==== Sys2Proof/Certificates/Slice0/Obligations.lean ====
section
/-! DEFINITION. The statements for the provers, from the numbered rules of the spec. Each docstring names the rule. -/

open Sys2Proof Sys2Proof.Machine Sys2Proof.Safety

/-! ## Encoding -/

/-- Words of `95_test_vectors.md` decode to the instructions and causes it gives for them. The last of 11199's digits being
ignored is the spec's decision D5 (log entry 8), the fault of 100001 its decision D4 (log entry 7), the causes of 2077 and of 9
its decision D6 (log entry 9). -/
def Obligations.SampleWordsDecode : Prop :=
  decode [1, 9, 10, 3] = .ok (.add (.pos 9) (.pos 10) (.pos 3)) ∧
  decode [11101, 1, 1, 0] = .ok (.add (.imm 1) (.imm 1) (.imm 0)) ∧
  decode [1002, 4, 3, 4] = .ok (.multiply (.pos 4) (.imm 3) (.pos 4)) ∧
  decode [103, 0, 99] = .ok (.input 0) ∧
  decode [104, 0, 99] = .ok (.output 0) ∧
  decode [1105, 1, 4, 0] = .ok (.jumpIfTrue (.imm 1) (.imm 4)) ∧
  decode [1006, 5, 0, 0] = .ok (.jumpIfFalse (.pos 5) (.imm 0)) ∧
  decode [1107, -1, 8, 5] = .ok (.lessThan (.imm (-1)) (.imm 8) (.pos 5)) ∧
  decode [1008, 2, 19, 21] = .ok (.equal (.pos 2) (.imm 19) (.pos 21)) ∧
  decode [11199] = .ok .halt ∧
  decode [2077] = .error (.invalidAddressingMode 2) ∧
  decode [100001, 0, 0, 0] = .error .malformedWord ∧
  decode [-1101, 0, 0, 0] = .error .malformedWord ∧
  decode [9, 1] = .error (.unknownOpcode 9) ∧
  decode [1, 0, 0] = .error .truncatedInstruction

/-- R79, R60, R69: decoding the encoding of any instruction, with every operand at every value and whatever cells follow, gives
the instruction back. -/
def Obligations.DecodeOfEncodeIsInstruction : Prop :=
  ∀ (i : Instr) (rest : List Int), decode (encode i ++ rest) = .ok i

/-- The other direction: an instruction decoded from a window has the word's opcode and exactly the window's operand cells, and
its canonical word differs from the window's in ignored mode digits alone: the first two count where there are at least two
tagged operands, the third where there are three (R69 to R71, R79). That ignored digits are accepted is the spec's decision D5
(log entry 8). -/
def Obligations.DecodedInstructionHoldsWindowCells : Prop :=
  ∀ (word : Int) (rest : List Int) (i : Instr), decode (word :: rest) = .ok i →
    i.cells = rest.take (i.length - 1) ∧ i.cells.length = i.length - 1 ∧
    ∃ f, decodeWord word = .ok f ∧ f.op = i.fields.op ∧ f.op = i.op.code ∧
      (3 ≤ i.length → f.d1 = i.fields.d1 ∧ f.d2 = i.fields.d2) ∧ (4 ≤ i.length → f.d3 = i.fields.d3)

/-- R79: the word of four fields and the fields of a word are inverse to each other, for every opcode below 100 and every mode
digit in 0 and 1; an instruction decoded from a word is the one its canonical word decodes to. It rests on the spec's decisions
D4 and D5 (log entries 7 and 8): no longer word decodes, and ignored digits are accepted. -/
def Obligations.WordFieldsRoundTrip : Prop :=
  (∀ f : Fields, f.op ≤ 99 → f.d1 ≤ 1 → f.d2 ≤ 1 → f.d3 ≤ 1 → decodeWord (encodeWord f) = .ok f) ∧
  (∀ (word : Int) (f : Fields), decodeWord word = .ok f →
    encodeWord f = word ∧ word = 10000 * (f.d3 : Int) + 1000 * (f.d2 : Int) + 100 * (f.d1 : Int) + (f.op : Int)) ∧
  (∀ (word : Int) (rest : List Int) (i : Instr), decode (word :: rest) = .ok i →
    decode (encodeWord i.fields :: rest) = .ok i)

/-- R72: exactly 72 words decode, the opcode map, and the unknown opcodes. The count is the spec's own inference, and rests on
its decisions D4 and D5 (log entries 7 and 8). -/
def Obligations.ExactlySeventyTwoLegalWords : Prop :=
  (∀ (word : Int) (rest : List Int), 3 ≤ rest.length →
    ((∃ i, decode (word :: rest) = .ok i) ↔ word ∈ legalWords)) ∧
  legalWords.length = 72 ∧ legalWords.Nodup ∧ (∀ w ∈ legalWords, 1 ≤ w ∧ w ≤ 11199) ∧ 1 ∈ legalWords ∧ 11199 ∈ legalWords ∧
  (∀ op : Op, (op, op.code, op.length) ∈
    [(Op.add, 1, 4), (Op.multiply, 2, 4), (Op.input, 3, 2), (Op.output, 4, 2), (Op.jumpIfTrue, 5, 3), (Op.jumpIfFalse, 6, 3),
     (Op.lessThan, 7, 4), (Op.equal, 8, 4), (Op.halt, 99, 1)]) ∧
  (∀ (word : Int) (rest : List Int) (i : Instr), decode (word :: rest) = .ok i → (i.op.code : Int) = word % 100) ∧
  (∀ (n : Nat) (rest : List Int), n = 0 ∨ 9 ≤ n ∧ n ≤ 98 → decode ((n : Int) :: rest) = .error (.unknownOpcode n))

/-- R63, R64, R66: the checks of a word in their order: range, mode digits from the most significant down for every opcode,
then the opcode. The fault of words from 100000 on is the spec's decision D4 (log entry 7), the order its decisions D6 and D7
(log entry 9). -/
def Obligations.WordFaultsInDecoderOrder : Prop :=
  ∀ word : Int,
    (word < 0 ∨ 100000 ≤ word → decodeWord word = .error .malformedWord) ∧
    (0 ≤ word → word < 100000 →
      (1 < word / 10000 % 10 → decodeWord word = .error (.invalidAddressingMode (word / 10000 % 10).toNat)) ∧
      (word / 10000 % 10 ≤ 1 → 1 < word / 1000 % 10 →
        decodeWord word = .error (.invalidAddressingMode (word / 1000 % 10).toNat)) ∧
      (word / 10000 % 10 ≤ 1 → word / 1000 % 10 ≤ 1 → 1 < word / 100 % 10 →
        decodeWord word = .error (.invalidAddressingMode (word / 100 % 10).toNat)) ∧
      (word / 10000 % 10 ≤ 1 → word / 1000 % 10 ≤ 1 → word / 100 % 10 ≤ 1 →
        decodeWord word = .ok ⟨(word % 100).toNat, (word / 100 % 10).toNat, (word / 1000 % 10).toNat,
          (word / 10000 % 10).toNat⟩ ∧
        (word % 100 ∉ ([1, 2, 3, 4, 5, 6, 7, 8, 99] : List Int) →
          ∀ rest : List Int, decode (word :: rest) = .error (.unknownOpcode (word % 100).toNat))))

/-- R70, R71: a mode digit no operand uses is checked to be 0 or 1 and then ignored; Input and Output take the raw address.
Accepting the digits is the spec's decision D5 (log entry 8), the digit reported its decision D7 (log entry 9). -/
def Obligations.IgnoredModeDigitsAreDropped : Prop :=
  (∀ (d1 d2 d3 : Nat) (rest : List Int), d1 ≤ 1 → d2 ≤ 1 → d3 ≤ 1 →
    decode (encodeWord ⟨3, d1, d2, d3⟩ :: rest) = decode (3 :: rest) ∧
    decode (encodeWord ⟨4, d1, d2, d3⟩ :: rest) = decode (4 :: rest) ∧
    decode (encodeWord ⟨99, d1, d2, d3⟩ :: rest) = decode (99 :: rest) ∧
    decode (encodeWord ⟨5, d1, d2, d3⟩ :: rest) = decode (encodeWord ⟨5, d1, d2, 0⟩ :: rest) ∧
    decode (encodeWord ⟨6, d1, d2, d3⟩ :: rest) = decode (encodeWord ⟨6, d1, d2, 0⟩ :: rest)) ∧
  (∀ (a : Int) (rest : List Int), decode (3 :: a :: rest) = .ok (.input a) ∧ decode (4 :: a :: rest) = .ok (.output a)) ∧
  (∀ (op d1 d2 d3 : Nat) (rest : List Int), op ∈ [3, 4, 5, 6, 99] → d1 ≤ 9 → d2 ≤ 9 → d3 ≤ 9 →
    1 < d1 ∨ 1 < d2 ∨ 1 < d3 →
    decode (encodeWord ⟨op, d1, d2, d3⟩ :: rest) =
      .error (.invalidAddressingMode (if 1 < d3 then d3 else if 1 < d2 then d2 else d1)))

/-- R67: an instruction whose cells do not all lie below `N` is truncated, and one whose cells do is resolved. -/
def Obligations.TruncationAtEndOfMemory : Prop :=
  ∀ (s : State) (f : Fields) (op : Op), s.run = .running → 0 ≤ s.pc → s.pc < s.memLen →
    decodeWord (s.memRead s.pc) = .ok f → f.op = op.code →
    ((s.memLen : Int) < s.pc + op.length →
      step s = .next { s with run := .faulted, err := some .truncatedInstruction }) ∧
    (s.pc + op.length ≤ (s.memLen : Int) → ∃ i, s.fetch = .ok i ∧ i.op = op) ∧
    op.length = (match op with
      | .add | .multiply | .lessThan | .equal => 4
      | .jumpIfTrue | .jumpIfFalse => 3
      | .input | .output => 2
      | .halt => 1)

/-! ## The cycle -/

/-- R91: the window holds the cells from the pc on, at most 4, clamped to the end of memory, and is never empty. -/
def Obligations.WindowHoldsCellsFromPc : Prop :=
  ∀ s : State, 0 ≤ s.pc → s.pc < s.memLen →
    (s.window.length : Int) = min 4 ((s.memLen : Int) - s.pc) ∧ 1 ≤ s.window.length ∧
    ∀ k : Nat, k < s.window.length → s.window[k]? = some (s.memRead (s.pc + k))

/-- R167: a running engine whose pc is outside memory faults at the fetch with the bad value still in the pc, and no other step
reports this cause. -/
def Obligations.PcOutsideMemoryFaultsAtFetch : Prop :=
  (∀ s : State, s.run = .running → s.pc < 0 ∨ (s.memLen : Int) ≤ s.pc →
    step s = .next { s with run := .faulted, err := some .programCounterOutOfBounds }) ∧
  (∀ s t : State, step s = .next t → t.run = .faulted → t.err = some .programCounterOutOfBounds →
    s.pc < 0 ∨ (s.memLen : Int) ≤ s.pc) ∧
  Cause.info .programCounterOutOfBounds = 0

/-- R90: while Running, a step is `exec` of the instruction the window decodes to, and nothing else; a word that does not decode
is the fault entry with its cause. -/
def Obligations.StepRunsTheDecodedInstruction : Prop :=
  ∀ s : State, s.run = .running → 0 ≤ s.pc → s.pc < s.memLen →
    (∀ i, decode s.window = .ok i → step s = exec i s) ∧
    (∀ c, decode s.window = .error c → step s = .next { s with run := .faulted, err := some c })

/-- R21, R69, R32: in a state that meets the invariant, every instruction fetched is well formed: its operands are cell values. -/
def Obligations.FetchedInstructionIsWellFormed : Prop :=
  ∀ (s : State) (i : Instr), Inv s → s.fetch = .ok i → i.wellFormed s.width = true

/-- R60, R79, R90: where the cells from the pc on are the encoding of an instruction, whatever stands after them, a running engine
executes it. -/
def Obligations.EncodedInstructionAtPcIsExecuted : Prop :=
  ∀ (s : State) (i : Instr), s.run = .running → 0 ≤ s.pc → s.pc + i.length ≤ (s.memLen : Int) →
    (∀ k : Nat, k < i.length → (encode i)[k]? = some (s.memRead (s.pc + k))) → step s = exec i s

/-- R100: a terminal state has no step: no next state follows it, and every step with a next state starts from Running. -/
def Obligations.TerminalStatesTakeNoStep : Prop :=
  ∀ s : State, (s.run = .halted ∨ s.run = .faulted → ∀ t, step s ≠ .next t) ∧ (∀ t, step s = .next t → s.run = .running)

/-- The stops of the two terminal states have names of their own, by the model's choice (log entry 5). -/
def Obligations.TerminalStopsAreNamed : Prop :=
  ∀ s : State, (s.run = .halted → step s = .fault .engineHalted) ∧ (s.run = .faulted → step s = .fault .engineFaulted) ∧
    (∀ c : Cause, step (s.raise c) = .fault .engineFaulted)

/-- R170: fault entry writes `run` and `err` (its code and info, 0 where the cause carries none) and nothing else, the host
receives the cause, and the engine never continues. -/
def Obligations.FaultEntryWritesRunAndErr : Prop :=
  ∀ (s : State) (c : Cause),
    s.raise c = { s with run := .faulted, err := some c } ∧ (s.raise c).run = .faulted ∧
    (s.raise c).errCode = some c.code ∧ (s.raise c).errInfo = some c.info ∧
    (c ∈ [Cause.malformedWord, .truncatedInstruction, .writeToImmediate, .programCounterOutOfBounds, .arithmeticOverflow] →
      (s.raise c).errInfo = some 0) ∧
    (s.raise c).report = some (.faulted c) ∧ ∀ t, step (s.raise c) ≠ .next t

/-- R160, R23: the numbers of the causes, of `err.info` and of the run states. They are the spec's decisions D8 and D9 (log
entry 16). -/
def Obligations.CodesOfCausesAndRunStates : Prop :=
  (∀ c : Cause, c.code = (match c with
    | .malformedWord => 1
    | .unknownOpcode _ => 2
    | .invalidAddressingMode _ => 3
    | .truncatedInstruction => 4
    | .outOfBounds _ => 5
    | .writeToImmediate => 6
    | .programCounterOutOfBounds => 7
    | .arithmeticOverflow => 8)) ∧
  (∀ n : Nat, Cause.info (.unknownOpcode n) = n ∧ Cause.info (.invalidAddressingMode n) = n) ∧
  (∀ a : Int, Cause.info (.outOfBounds a) = a) ∧
  (∀ c ∈ [Cause.malformedWord, .truncatedInstruction, .writeToImmediate, .programCounterOutOfBounds, .arithmeticOverflow],
    c.info = 0) ∧
  (∀ s : State, (s.run = .running → s.runCode = 0) ∧ (s.run = .halted → s.runCode = 1) ∧ (s.run = .faulted → s.runCode = 2))

/-- R169: a step reports a fault exactly when some condition of the spec's list holds, and then the first one. The conditions
are `faultConditions`, written from the cells at the pc alone. A step that waits at an Input reports none (R120). The order
inside a stage, the words from 100000 on, ArithmeticOverflow and the target of a jump not taken are the spec's decisions D6,
D7, D13, D4, D2 and D11 (log entries 6, 7, 9, 10). That ignored mode digits raise none is the spec's decision D5 (log entry 8);
the name of the wait is the model's (log entry 5). -/
def Obligations.StepReportsFirstFaultInPriorityOrder : Prop :=
  ∀ (s : State) (c : Cause), s.run = .running → step s ≠ .fault .waitingForInput →
    ((∃ t, step s = .next t ∧ t.run = .faulted ∧ t.err = some c) ↔ firstFault s = some c)

/-- R102: what each opcode's cycle reads, writes and leaves in the pc, from the cells at the pc alone, for a cycle without
fault. The table is the spec's own inference; that Halt leaves the pc is its decision D10 (log entry 13), that a jump not taken
reads no target its decision D11 (log entry 10). It runs words with ignored mode digits too, by the spec's decision D5 (log
entry 8). -/
def Obligations.StepFollowsSummaryTable : Prop :=
  ∀ s : State, s.run = .running → firstFault s = none →
    (opcodeAt s = 1 → step s = .next ((s.memWrite (cellAt s 3) (operandAt s 1 + operandAt s 2)).advance 4)) ∧
    (opcodeAt s = 2 → step s = .next ((s.memWrite (cellAt s 3) (operandAt s 1 * operandAt s 2)).advance 4)) ∧
    (opcodeAt s = 3 → ∀ v rest, s.inChan = v :: rest →
      step s = .next { (s.memWrite (cellAt s 1) v).advance 2 with inChan := rest }) ∧
    (opcodeAt s = 4 → step s = .next ((s.deliver (s.memRead (cellAt s 1))).advance 2)) ∧
    (opcodeAt s = 5 → operandAt s 1 ≠ 0 → step s = .next { s with pc := operandAt s 2 }) ∧
    (opcodeAt s = 5 → operandAt s 1 = 0 → step s = .next { s with pc := s.pc + 3 }) ∧
    (opcodeAt s = 6 → operandAt s 1 = 0 → step s = .next { s with pc := operandAt s 2 }) ∧
    (opcodeAt s = 6 → operandAt s 1 ≠ 0 → step s = .next { s with pc := s.pc + 3 }) ∧
    (opcodeAt s = 7 → step s =
      .next ((s.memWrite (cellAt s 3) (if operandAt s 1 < operandAt s 2 then 1 else 0)).advance 4)) ∧
    (opcodeAt s = 8 → step s =
      .next ((s.memWrite (cellAt s 3) (if operandAt s 1 = operandAt s 2 then 1 else 0)).advance 4)) ∧
    (opcodeAt s = 99 → step s = .next { s with result := some (s.memRead 0), run := .halted }) ∧
    opcodeAt s ∈ ([1, 2, 3, 4, 5, 6, 7, 8, 99] : List Int)

/-! ## The invariant, reset and load -/

/-- R21 to R27, R32: from every state that meets the invariant, a step gives one that meets it. That `err` and `result` are
absent until written is the model's choice (log entry 3); the bounds on the length and the range of channel values are the
spec's decisions D3 and D24 (log entries 2 and 4). -/
def Obligations.StepKeepsInvariant : Prop :=
  ∀ s t : State, Inv s → step s = .next t → Inv t

/-- The state after reset meets the invariant. Its width, length, memory and queue are the model's choice (log entries 1, 2, 4). -/
def Obligations.ResetMeetsInvariant : Prop := Inv State.reset

/-- R31: what reset leaves after an image is loaded. R31 leaves `err` and `result` unspecified: nothing is said of them. -/
def Obligations.ResetLeavesTheImageAndPcZero : Prop :=
  ∀ (width : CellWidth) (image inputs : List Int),
    (State.boot width image inputs).memLen = image.length ∧
    (∀ k : Nat, k < image.length → some ((State.boot width image inputs).memRead k) = image[k]?) ∧
    (State.boot width image inputs).pc = 0 ∧ (State.boot width image inputs).run = .running ∧
    (State.boot width image inputs).runCode = 0 ∧ (State.boot width image inputs).outlog = [] ∧
    (State.boot width image inputs).inChan = inputs ∧ (State.boot width image inputs).outChan = []

/-- The values of `State.reset`: pc 0, Running, nothing output (R31); 64-bit cells, the greatest length, every cell 0, no input
queued, `err` and `result` absent are the model's choice (log entries 1 to 4). -/
def Obligations.ResetStateValues : Prop :=
  State.reset.pc = 0 ∧ State.reset.run = .running ∧ State.reset.outlog = [] ∧ State.reset.outChan = [] ∧
  State.reset.width = .bits 64 ∧ State.reset.memLen = 2 ^ 63 - 4 ∧ (∀ a, State.reset.memRead a = 0) ∧
  State.reset.inChan = [] ∧ State.reset.err = none ∧ State.reset.result = none

/-- R192, R6, R7, D23: the loader makes a machine exactly of a legal width (18 bits or more, or unbounded), a non-empty image of
legal length and cell values, and queued inputs that are cell values, and the machine it makes meets the invariant. The bounds and
the refusal of an image are the spec's decisions D1, D3, D23 and D24 (log entries 1, 2, 4, 15); that the loader refuses an illegal
width or a queued value in the same way is the model's choice (DEDUCED, log entry 15). -/
def Obligations.LoaderAcceptsExactlyLegalImages : Prop :=
  ∀ (width : CellWidth) (image inputs : List Int),
    ((∃ s, State.load width image inputs = some s) ↔
      (width = .unbounded ∨ ∃ w, width = .bits w ∧ 18 ≤ w) ∧ 1 ≤ image.length ∧ width.fits (image.length + 3) = true ∧
        (∀ v ∈ image, width.fits v = true) ∧ ∀ v ∈ inputs, width.fits v = true) ∧
    (∀ v : Int, CellWidth.fits .unbounded v = true ∧
      ∀ w : Nat, (CellWidth.bits w).fits v = true ↔ -(2 ^ (w - 1)) ≤ v ∧ v ≤ 2 ^ (w - 1) - 1) ∧
    ∀ s, State.load width image inputs = some s → s = State.boot width image inputs ∧ Inv s

/-- R27, R190, R200: what the host may do to a machine keeps the invariant. A supplied value goes to the end of the queue; a reset
without a new load keeps width, length and memory and leaves the rest as after reset. Both take exactly cell values, the spec's
decision D24; the queue, and the refusal of another value, are the model's form of the port (log entries 4, 15, 19). -/
def Obligations.HostActsKeepInvariant : Prop :=
  ∀ s : State, Inv s →
    (∀ v : Int, ((∃ t, s.supplyInput v = some t) ↔ s.width.fits v = true) ∧
      ∀ t, s.supplyInput v = some t → t = { s with inChan := s.inChan ++ [v] } ∧ Inv t) ∧
    (∀ inputs : List Int, ((∃ t, s.resetWithoutReload inputs = some t) ↔ ∀ v ∈ inputs, s.width.fits v = true) ∧
      ∀ t, s.resetWithoutReload inputs = some t →
        t.width = s.width ∧ t.memLen = s.memLen ∧ t.mem = s.mem ∧ t.pc = 0 ∧ t.run = .running ∧ t.outlog = [] ∧
        t.outChan = [] ∧ t.inChan = inputs ∧ Inv t)

/-- R7, R21: no step changes the cell width or the length of memory. -/
def Obligations.ParametersNeverChange : Prop :=
  ∀ s t : State, step s = .next t → t.width = s.width ∧ t.memLen = s.memLen

/-! ## Whole-machine rules -/

/-- R99, R171: a cycle that faults changes `run`, `err` and, at an Input alone, the one value taken from the input channel.
That a faulting Input has taken its value is the spec's decision D12 (log entry 11). -/
def Obligations.FaultingCycleIsPrecise : Prop :=
  ∀ s t : State, step s = .next t → t.run = .faulted →
    t = { s with run := .faulted, err := t.err, inChan := t.inChan } ∧ t.err.isSome = true ∧
    (t.inChan = s.inChan ∨ ∃ v dest, s.fetch = .ok (.input dest) ∧ s.inChan = v :: t.inChan)

/-- R150, R95, R201: only Halt sets Halted, with cell 0 in `result` and the pc on the Halt. That the pc stays on the Halt is
the spec's decision D10 (log entry 13). -/
def Obligations.OnlyHaltSetsHalted : Prop :=
  ∀ s t : State, step s = .next t →
    ((t.run = .halted ↔ s.fetch = .ok .halt) ∧
      (t.run = .halted → t = { s with run := .halted, result := some (s.memRead 0) }))

/-- R101, R124: a running engine stops nowhere but at an Input with no value available, and is never refused. The stop under
the name `waitingForInput` is the model's form of a wait (log entry 5); that an Input with a bad address waits too is the
spec's decision D12 (log entry 11). -/
def Obligations.OnlyInputWaits : Prop :=
  ∀ s : State, (∀ q, step s ≠ .refused q) ∧
    (s.run = .running → ∀ f, step s = .fault f ↔
      f = .waitingForInput ∧ s.inChan = [] ∧ ∃ dest, s.fetch = .ok (.input dest))

/-- R124, R200: an Input that waits runs once the host supplies a value, and stores that value. The queue the host fills is the
model's form of the port (log entry 4). So is the name of the wait (log entry 5). -/
def Obligations.SuppliedInputEndsTheWait : Prop :=
  ∀ (s s' : State) (dest v : Int), step s = .fault .waitingForInput → s.fetch = .ok (.input dest) →
    0 ≤ dest → dest < s.memLen → s.supplyInput v = some s' →
    ∃ t, step s' = .next t ∧ t.memRead dest = v ∧ t.pc = s.pc + 2 ∧ t.inChan = [] ∧ t.run = .running

/-- R23 to R25: a step starts from Running; while the run goes on it writes neither `err` nor `result`; Halt leaves `err` and a
fault leaves `result` as it was. What `err` and `result` hold outside their own states is the model's choice (log entry 3). -/
def Obligations.StatusWrittenOnlyAtTheEnd : Prop :=
  ∀ s t : State, step s = .next t →
    s.run = .running ∧ (t.run = .running → t.err = s.err ∧ t.result = s.result) ∧ (t.run = .halted → t.err = s.err) ∧
    (t.run = .faulted → t.result = s.result)

/-- R99, R26, R123: a cycle makes at most one port operation: an Output appends one cell to the channel and to `outlog`, an
Input takes the next value, and nothing else touches either. -/
def Obligations.StepMakesAtMostOnePortOperation : Prop :=
  ∀ s t : State, step s = .next t →
    (t.inChan = s.inChan ∧ t.outlog = s.outlog ∧ t.outChan = s.outChan) ∨
    (∃ src, s.fetch = .ok (.output src) ∧ t.inChan = s.inChan ∧ t.outlog = s.outlog ++ [s.memRead src] ∧
      t.outChan = s.outChan ++ [s.memRead src]) ∨
    (∃ dest v, s.fetch = .ok (.input dest) ∧ s.inChan = v :: t.inChan ∧ t.outlog = s.outlog ∧ t.outChan = s.outChan)

/-- R51, R43, R99: a step changes no cell but the one the fetched instruction stores to, which lies inside memory. -/
def Obligations.StepWritesOnlyTheStoreAddress : Prop :=
  ∀ (s t : State) (a : Int), step s = .next t → 0 ≤ a → t.memRead a ≠ s.memRead a →
    a < s.memLen ∧ ∃ i, s.fetch = .ok i ∧ storeAddress i = some a

/-- R175, R23 to R26: no instruction reads `err`, `result`, `outlog` or the output channel: states that differ in these alone
step alike. -/
def Obligations.StatusRegistersUnseenByPrograms : Prop :=
  ∀ s s' : State, SameProgramView s s' →
    (∀ t, step s = .next t → ∃ t', step s' = .next t' ∧ SameProgramView t t' ∧ (t.run = .faulted → t.err = t'.err) ∧
      (t.run = .halted → t.result = t'.result)) ∧
    (∀ f, step s = .fault f → step s' = .fault f)

/-- R101: the input channel is seen by Input alone: every other step does the same whatever is queued. -/
def Obligations.InputChannelSeenByInputAlone : Prop :=
  ∀ (s t : State) (queue : List Int), (∀ dest, s.fetch ≠ .ok (.input dest)) → step s = .next t →
    step { s with inChan := queue } = .next { t with inChan := queue }

/-- R201, R151, R170: a run is over exactly in a terminal state; after Halted the host has cell 0, the whole memory and the
outputs; after Faulted the cause. -/
def Obligations.ReportTellsHowTheRunEnded : Prop :=
  ∀ s : State, Inv s →
    (s.report = none ↔ s.run = .running) ∧
    (s.run = .halted → s.report = some (.halted (s.memRead 0) s.finalMemory s.outlog)) ∧
    (s.run = .faulted → ∃ c, s.err = some c ∧ s.report = some (.faulted c)) ∧
    s.finalMemory.length = s.memLen ∧ ∀ k : Nat, k < s.memLen → s.finalMemory[k]? = some (s.memRead k)

/-- R49, R196: an instruction that stores into any cell, one of its own cells or of the next instruction included, advances by the
length it was fetched with, and the window fetched from any address after it (its own address, the next instruction's) has the new
value at that cell and the old ones elsewhere. Every storing instruction is covered: Add, Multiply, Input, LessThan, Equal. -/
def Obligations.StoreIntoCodeSeenByNextFetch : Prop :=
  ∀ (s : State) (i : Instr) (d r : Int), s.run = .running → s.fetch = .ok i → Stores s d r i → 0 ≤ d → d < s.memLen →
    ∃ t, step s = .next t ∧ t.pc = s.pc + i.length ∧ t.run = .running ∧
      ∀ p : Int, 0 ≤ p → ∀ k : Nat, k < (t.jumpTo p).window.length →
        (t.jumpTo p).window[k]? = some (if p + k = d then r else s.memRead (p + k))

/-- R132, R95, R22: a taken jump loads any target unchecked, and a target outside memory faults at the next fetch with the
target still in the pc. That the check waits for the fetch is the spec's decision D22 (log entry 13). -/
def Obligations.BadJumpTargetFaultsAtNextFetch : Prop :=
  ∀ (s : State) (cond target : Operand) (c v : Int), s.run = .running →
    (s.fetch = .ok (.jumpIfTrue cond target) ∧ c ≠ 0 ∨ s.fetch = .ok (.jumpIfFalse cond target) ∧ c = 0) →
    readOperand s cond = .ok c → readOperand s target = .ok v → v < 0 ∨ (s.memLen : Int) ≤ v →
    ∃ t, step s = .next t ∧ t = { s with pc := v } ∧
      step t = .next { s with pc := v, run := .faulted, err := some .programCounterOutOfBounds }

/-! ## Operands, memory, ALU -/

/-- R96: `ReadOperand`. -/
def Obligations.ReadOperandGivesLiteralOrCell : Prop :=
  ∀ s : State, (∀ v : Int, readOperand s (.imm v) = .ok v) ∧
    (∀ a : Int, a < 0 ∨ (s.memLen : Int) ≤ a → readOperand s (.pos a) = .error (.outOfBounds a)) ∧
    (∀ a : Int, 0 ≤ a → a < s.memLen → readOperand s (.pos a) = .ok (s.memRead a))

/-- R97: `WriteOperand` changes one cell, and only through a Position inside memory. -/
def Obligations.WriteOperandChangesOneCell : Prop :=
  ∀ (s : State) (value : Int), (∀ v : Int, writeOperand s (.imm v) value = .error .writeToImmediate) ∧
    (∀ a : Int, a < 0 ∨ (s.memLen : Int) ≤ a → writeOperand s (.pos a) value = .error (.outOfBounds a)) ∧
    (∀ a : Int, 0 ≤ a → a < s.memLen → ∃ t, writeOperand s (.pos a) value = .ok t ∧ t.memRead a = value ∧
      (∀ b : Int, 0 ≤ b → b ≠ a → t.memRead b = s.memRead b) ∧ t = { s with mem := t.mem })

/-- R43, R47: a write is read back by the next read of the cell, no other cell changes, and memory keeps its canonical form. -/
def Obligations.CellReadAfterWrite : Prop :=
  ∀ (s : State) (a v : Int), 0 ≤ a →
    (s.memWrite a v).memRead a = v ∧ (∀ b : Int, 0 ≤ b → b ≠ a → (s.memWrite a v).memRead b = s.memRead b) ∧
    (Memory.wf s.mem → Memory.wf (s.memWrite a v).mem)

/-- Two memories in canonical form that read alike are the same data (the form the model keeps memory in, log entry 2). -/
def Obligations.EqualReadingMemoriesAreEqual : Prop :=
  ∀ m n : Memory, Memory.wf m → Memory.wf n → (∀ a, m.get a = n.get a) → m = n

/-- R112, R113: the exact sum and product where they fit, ArithmeticOverflow where they do not; unbounded cells never overflow.
The fault is the spec's decision D2 (log entry 6). -/
def Obligations.OverflowExactlyOutsideTheCellRange : Prop :=
  ∀ (w : Nat) (x y : Int),
    (-(2 ^ (w - 1)) ≤ x + y → x + y ≤ 2 ^ (w - 1) - 1 → aluSum (.bits w) x y = .ok (x + y)) ∧
    (x + y < -(2 ^ (w - 1)) ∨ 2 ^ (w - 1) - 1 < x + y → aluSum (.bits w) x y = .error .arithmeticOverflow) ∧
    (-(2 ^ (w - 1)) ≤ x * y → x * y ≤ 2 ^ (w - 1) - 1 → aluProduct (.bits w) x y = .ok (x * y)) ∧
    (x * y < -(2 ^ (w - 1)) ∨ 2 ^ (w - 1) - 1 < x * y → aluProduct (.bits w) x y = .error .arithmeticOverflow) ∧
    aluSum .unbounded x y = .ok (x + y) ∧ aluProduct .unbounded x y = .ok (x * y)

/-- R114: the corners of the ALU, for every legal width; M is INT_MAX and m is INT_MIN. The faults are the spec's decision D2
(log entry 6). -/
def Obligations.AluCorners : Prop :=
  ∀ (w : Nat) (M m v : Int), 18 ≤ w → M = 2 ^ (w - 1) - 1 → m = -M - 1 → (CellWidth.bits w).fits v = true →
    aluSum (.bits w) 0 0 = .ok 0 ∧ aluSum (.bits w) 100 (-1) = .ok 99 ∧ aluSum (.bits w) (-5) (-7) = .ok (-12) ∧
    aluSum (.bits w) M 0 = .ok M ∧ aluSum (.bits w) M 1 = .error .arithmeticOverflow ∧
    aluSum (.bits w) m (-1) = .error .arithmeticOverflow ∧ aluSum (.bits w) M m = .ok (-1) ∧
    aluSum (.bits w) m m = .error .arithmeticOverflow ∧ aluProduct (.bits w) 0 v = .ok 0 ∧
    aluProduct (.bits w) 1 v = .ok v ∧ (v ≠ m → aluProduct (.bits w) (-1) v = .ok (-v)) ∧
    aluProduct (.bits w) (-1) m = .error .arithmeticOverflow ∧ aluProduct (.bits w) (-3) 4 = .ok (-12) ∧
    aluProduct (.bits w) (-3) (-4) = .ok 12 ∧ aluProduct (.bits w) M 2 = .error .arithmeticOverflow ∧
    aluProduct (.bits w) m 1 = .ok m ∧
    (w % 2 = 0 → aluProduct (.bits w) (2 ^ (w / 2)) (2 ^ (w / 2 - 1)) = .error .arithmeticOverflow ∧
      aluProduct (.bits w) (-(2 ^ (w / 2))) (2 ^ (w / 2 - 1)) = .ok m)

/-- R142: a comparison gives exactly 1 or 0, and exactly one of less, equal, greater holds. The sum is the spec's own
inference. -/
def Obligations.CompareLaws : Prop :=
  ∀ x y : Int, ∃ l e g, aluLess x y = .ok l ∧ aluEqual x y = .ok e ∧ aluLess y x = .ok g ∧
    (l = 0 ∨ l = 1) ∧ (e = 0 ∨ e = 1) ∧ (g = 0 ∨ g = 1) ∧ l + e + g = 1 ∧ (l = 1 ↔ x < y) ∧ (e = 1 ↔ x = y)

/-! ## The instructions complete -/

/-- R110: Add on readable operands whose sum fits, with a destination inside memory. -/
def Obligations.AddCompletes : Prop :=
  ∀ (s : State) (a b : Operand) (d x y : Int), readOperand s a = .ok x → readOperand s b = .ok y →
    s.width.fits (x + y) = true → 0 ≤ d → d < s.memLen →
    ∃ t, exec (.add a b (.pos d)) s = .next t ∧ t.memRead d = x + y ∧
      (∀ k : Int, 0 ≤ k → k ≠ d → t.memRead k = s.memRead k) ∧ t = { s with mem := t.mem, pc := s.pc + 4 }

/-- R111: Multiply on readable operands whose product fits, with a destination inside memory. -/
def Obligations.MultiplyCompletes : Prop :=
  ∀ (s : State) (a b : Operand) (d x y : Int), readOperand s a = .ok x → readOperand s b = .ok y →
    s.width.fits (x * y) = true → 0 ≤ d → d < s.memLen →
    ∃ t, exec (.multiply a b (.pos d)) s = .next t ∧ t.memRead d = x * y ∧
      (∀ k : Int, 0 ≤ k → k ≠ d → t.memRead k = s.memRead k) ∧ t = { s with mem := t.mem, pc := s.pc + 4 }

/-- R120: Input with a value available and an address inside memory takes the value and stores it. -/
def Obligations.InputCompletes : Prop :=
  ∀ (s : State) (dest v : Int) (rest : List Int), s.inChan = v :: rest → 0 ≤ dest → dest < s.memLen →
    ∃ t, exec (.input dest) s = .next t ∧ t.memRead dest = v ∧
      (∀ k : Int, 0 ≤ k → k ≠ dest → t.memRead k = s.memRead k) ∧
      t = { s with mem := t.mem, pc := s.pc + 2, inChan := rest }

/-- R121: Output from an address inside memory delivers the cell and appends it to `outlog`; memory is not changed. -/
def Obligations.OutputCompletes : Prop :=
  ∀ (s : State) (src : Int), 0 ≤ src → src < s.memLen →
    exec (.output src) s = .next { s with
      pc := s.pc + 2, outlog := s.outlog ++ [s.memRead src], outChan := s.outChan ++ [s.memRead src] }

/-- R130: JumpIfTrue, taken on any value but zero; on zero the target is not read and cannot fault. That the target is not read
then is the spec's decision D11 (log entry 10). -/
def Obligations.JumpIfTrueCompletes : Prop :=
  ∀ (s : State) (cond target : Operand) (c : Int), readOperand s cond = .ok c →
    (c ≠ 0 → ∀ v : Int, readOperand s target = .ok v → exec (.jumpIfTrue cond target) s = .next { s with pc := v }) ∧
    (c = 0 → exec (.jumpIfTrue cond target) s = .next { s with pc := s.pc + 3 })

/-- R131: JumpIfFalse, taken on exactly zero; on any other value the target is not read and cannot fault. That the target is
not read then is the spec's decision D11 (log entry 10). -/
def Obligations.JumpIfFalseCompletes : Prop :=
  ∀ (s : State) (cond target : Operand) (c : Int), readOperand s cond = .ok c →
    (c = 0 → ∀ v : Int, readOperand s target = .ok v → exec (.jumpIfFalse cond target) s = .next { s with pc := v }) ∧
    (c ≠ 0 → exec (.jumpIfFalse cond target) s = .next { s with pc := s.pc + 3 })

/-- R140: LessThan on readable operands with a destination inside memory writes 1 or 0, by the signed order. -/
def Obligations.LessThanCompletes : Prop :=
  ∀ (s : State) (a b : Operand) (d x y : Int), readOperand s a = .ok x → readOperand s b = .ok y → 0 ≤ d → d < s.memLen →
    ∃ t, exec (.lessThan a b (.pos d)) s = .next t ∧ (x < y → t.memRead d = 1) ∧ (y ≤ x → t.memRead d = 0) ∧
      (∀ k : Int, 0 ≤ k → k ≠ d → t.memRead k = s.memRead k) ∧ t = { s with mem := t.mem, pc := s.pc + 4 }

/-- R141: Equal on readable operands with a destination inside memory writes 1 or 0. -/
def Obligations.EqualCompletes : Prop :=
  ∀ (s : State) (a b : Operand) (d x y : Int), readOperand s a = .ok x → readOperand s b = .ok y → 0 ≤ d → d < s.memLen →
    ∃ t, exec (.equal a b (.pos d)) s = .next t ∧ (x = y → t.memRead d = 1) ∧ (x ≠ y → t.memRead d = 0) ∧
      (∀ k : Int, 0 ≤ k → k ≠ d → t.memRead k = s.memRead k) ∧ t = { s with mem := t.mem, pc := s.pc + 4 }

/-- R150: Halt records cell 0 and sets Halted, in every state; nothing else changes, the pc included. That the pc stays is the
spec's decision D10 (log entry 13). -/
def Obligations.HaltCompletes : Prop :=
  ∀ s : State, exec .halt s = .next { s with result := some (s.memRead 0), run := .halted }

/-! ## The instructions fault -/

/-- R169 items 6 to 10, R110, R111, R140, R141: the faults of format T in EXECUTE, in order, each leaving everything but `run`
and `err` as it was. The order and the overflow are the spec's decisions D13 and D2 (log entries 9 and 6). -/
def Obligations.ThreeOperandFaultsInOrder : Prop :=
  ∀ (s : State) (i : Instr) (a b dest : Operand),
    i ∈ [.add a b dest, .multiply a b dest, .lessThan a b dest, .equal a b dest] →
    (∀ p : Int, a = .pos p → (p < 0 ∨ (s.memLen : Int) ≤ p) → exec i s = .next (s.raise (.outOfBounds p))) ∧
    (∀ x, readOperand s a = .ok x →
      (∀ p : Int, b = .pos p → (p < 0 ∨ (s.memLen : Int) ≤ p) → exec i s = .next (s.raise (.outOfBounds p))) ∧
      (∀ y, readOperand s b = .ok y →
        (i = .add a b dest → s.width.fits (x + y) = false → exec i s = .next (s.raise .arithmeticOverflow)) ∧
        (i = .multiply a b dest → s.width.fits (x * y) = false → exec i s = .next (s.raise .arithmeticOverflow)) ∧
        ((i = .add a b dest → s.width.fits (x + y) = true) → (i = .multiply a b dest → s.width.fits (x * y) = true) →
          (∀ v, dest = .imm v → exec i s = .next (s.raise .writeToImmediate)) ∧
          (∀ p : Int, dest = .pos p → (p < 0 ∨ (s.memLen : Int) ≤ p) → exec i s = .next (s.raise (.outOfBounds p))))))

/-- R120, R121: with no value available Input stops and waits, whatever its address; with one, a bad address faults with the
value taken; a bad Output address faults and delivers nothing. That Input takes the value first is the spec's decision D12 (log
entry 11). The stop under the name `waitingForInput` is the model's form of the wait (log entry 5). -/
def Obligations.PortInstructionsFaultOnBadAddress : Prop :=
  ∀ (s : State) (a : Int),
    (s.inChan = [] → exec (.input a) s = .fault .waitingForInput) ∧
    (a < 0 ∨ (s.memLen : Int) ≤ a →
      (∀ v rest, s.inChan = v :: rest →
        exec (.input a) s = .next { s with inChan := rest, run := .faulted, err := some (.outOfBounds a) }) ∧
      exec (.output a) s = .next { s with run := .faulted, err := some (.outOfBounds a) })

/-- R130, R131: the faults of the jumps: a bad condition address, and a bad target address only when the jump is taken. -/
def Obligations.JumpsFaultOnBadAddress : Prop :=
  ∀ (s : State) (cond target : Operand) (p : Int), p < 0 ∨ (s.memLen : Int) ≤ p →
    (cond = .pos p → exec (.jumpIfTrue cond target) s = .next (s.raise (.outOfBounds p)) ∧
      exec (.jumpIfFalse cond target) s = .next (s.raise (.outOfBounds p))) ∧
    (∀ c, readOperand s cond = .ok c → target = .pos p →
      (c ≠ 0 → exec (.jumpIfTrue cond target) s = .next (s.raise (.outOfBounds p))) ∧
      (c = 0 → exec (.jumpIfFalse cond target) s = .next (s.raise (.outOfBounds p))))

/-! ## Frames -/

/-- What Add, Multiply, LessThan and Equal leave alone, whatever their operands: every cell but the destination's, the channels,
`outlog`, `result` and the parameters; `run` and `err` but by a fault, which changes nothing else. -/
def Obligations.ComputeInstructionsFrame : Prop :=
  ∀ (s t : State) (i : Instr) (a b dest : Operand),
    i ∈ [.add a b dest, .multiply a b dest, .lessThan a b dest, .equal a b dest] → exec i s = .next t →
    (∀ k : Int, 0 ≤ k → dest ≠ .pos k → t.memRead k = s.memRead k) ∧
    t.width = s.width ∧ t.memLen = s.memLen ∧ t.result = s.result ∧ t.outlog = s.outlog ∧ t.outChan = s.outChan ∧
    t.inChan = s.inChan ∧ (t.run = s.run ∧ t.err = s.err ∨ ∃ c, t = s.raise c)

/-- What Input and Output leave alone: Input every cell but its address's, `outlog` and the output channel; Output every cell
and the input channel; both `result`, the parameters, and `run` and `err` but by a fault. That a faulting Input has taken its
value is the spec's decision D12 (log entry 11). -/
def Obligations.PortInstructionsFrame : Prop :=
  ∀ (s t : State) (a : Int),
    (exec (.input a) s = .next t →
      (∀ k : Int, 0 ≤ k → k ≠ a → t.memRead k = s.memRead k) ∧ t.outlog = s.outlog ∧ t.outChan = s.outChan ∧
      t.width = s.width ∧ t.memLen = s.memLen ∧ t.result = s.result ∧
      (t.run = s.run ∧ t.err = s.err ∨
        t.run = .faulted ∧ t.err = some (.outOfBounds a) ∧ t.mem = s.mem ∧ t.pc = s.pc)) ∧
    (exec (.output a) s = .next t →
      t.mem = s.mem ∧ t.inChan = s.inChan ∧ t.width = s.width ∧ t.memLen = s.memLen ∧ t.result = s.result ∧
      (t.run = s.run ∧ t.err = s.err ∨ t = s.raise (.outOfBounds a)))

/-- What the jumps and Halt leave alone: every cell, the channels, `outlog` and the parameters; the jumps `result`, and `run`
and `err` but by a fault; Halt `err` and the pc. That Halt leaves the pc is the spec's decision D10 (log entry 13). -/
def Obligations.JumpAndHaltFrame : Prop :=
  ∀ (s t : State) (cond target : Operand),
    (exec (.jumpIfTrue cond target) s = .next t ∨ exec (.jumpIfFalse cond target) s = .next t →
      t = { s with pc := t.pc } ∨ ∃ c, t = s.raise c) ∧
    (exec .halt s = .next t → t = { s with run := t.run, result := t.result })
end

