-- ==== Sys2Proof/Laws/Decode.lean ====
section
/-! SUPPORT. The decoder's cases, each said once: what `splitWord`, `checkModes`, `decodeWord`, `lookupOp`, `resolve` and `decode`
answer and when. -/

namespace Sys2Proof

/-- A defined opcode is the code of its operation. -/
theorem lookupOp_eq_some_iff (n : Nat) (op : Op) : lookupOp n = some op ↔ n = op.code := by
  constructor
  · intro h
    obtain ⟨row, hrow, rfl⟩ := Option.map_eq_some_iff.mp h
    have hmem := List.mem_of_find?_eq_some hrow
    have hn : row.1 = n := by simpa using List.find?_some hrow
    subst hn
    fin_cases hmem <;> rfl
  · rintro rfl
    cases op <;> rfl

@[simp] theorem lookupOp_code (op : Op) : lookupOp op.code = some op := (lookupOp_eq_some_iff _ _).mpr rfl

/-- An opcode is undefined exactly when it is no operation's code. -/
theorem lookupOp_eq_none_iff (n : Nat) : lookupOp n = none ↔ ∀ op : Op, n ≠ op.code := by
  rw [Option.eq_none_iff_forall_ne_some]
  exact forall_congr' fun op => not_congr (lookupOp_eq_some_iff n op)

/-- Every way a word can pass DECODE. -/
theorem decodeWord_eq_ok_iff (word : Int) (f : Fields) :
    decodeWord word = .ok f ↔
      0 ≤ word ∧ word < 100000 ∧ f = ⟨word.toNat % 100, digit 2 word.toNat, digit 3 word.toNat, digit 4 word.toNat⟩ ∧
        f.d1 ≤ 1 ∧ f.d2 ≤ 1 ∧ f.d3 ≤ 1 := by
  unfold decodeWord splitWord
  by_cases h0 : word < 0
  · simp only [h0, if_true, reduceCtorEq, false_iff]
    omega
  · by_cases h1 : 100000 ≤ word
    · simp only [h0, h1, if_true, if_false, reduceCtorEq, false_iff]
      omega
    · simp only [h0, h1, if_false, checkModes]
      constructor
      · intro h
        split at h
        · cases h
        · split at h
          · cases h
          · split at h
            · cases h
            · next h3 h2 h1' =>
              cases h
              exact ⟨by omega, by omega, rfl, Nat.not_lt.mp h1', Nat.not_lt.mp h2, Nat.not_lt.mp h3⟩
      · rintro ⟨-, -, rfl, h1', h2', h3'⟩
        simp only at h1' h2' h3'
        rw [if_neg (by omega), if_neg (by omega), if_neg (by omega)]

/-- Every way RESOLVE can succeed. -/
theorem resolve_eq_ok_iff (f : Fields) (window : List Int) (i : Instr) :
    resolve f window = .ok i ↔
      ∃ op : Op, f.op = op.code ∧ op.length ≤ window.length ∧
        i = op.assemble f (window.getD 1 0) (window.getD 2 0) (window.getD 3 0) := by
  unfold resolve
  cases h : lookupOp f.op with
  | none =>
    simp only [reduceCtorEq, false_iff, not_exists]
    rintro op ⟨hop, -⟩
    exact (lookupOp_eq_none_iff _).mp h op hop
  | some op =>
    have hop := (lookupOp_eq_some_iff _ _).mp h
    simp only
    constructor
    · intro hi
      split at hi
      · cases hi
      · cases hi
        exact ⟨op, hop, by omega, rfl⟩
    · rintro ⟨op', hop', hlen, rfl⟩
      rw [hop', lookupOp_code] at h
      cases h
      rw [if_neg (by omega)]

/-- Every way a window can decode to an instruction. -/
theorem decode_eq_ok_iff (window : List Int) (i : Instr) :
    decode window = .ok i ↔
      ∃ (word : Int) (rest : List Int) (f : Fields) (op : Op),
        window = word :: rest ∧ decodeWord word = .ok f ∧ f.op = op.code ∧ op.length ≤ window.length ∧
          i = op.assemble f (window.getD 1 0) (window.getD 2 0) (window.getD 3 0) := by
  cases window with
  | nil => simp [decode]
  | cons word rest =>
    cases h : decodeWord word with
    | error c =>
      simp only [decode, h, reduceCtorEq, false_iff, not_exists]
      rintro w r f op ⟨hw, hd, -⟩
      cases hw
      simp [h] at hd
    | ok f =>
      simp only [decode, h, resolve_eq_ok_iff]
      constructor
      · rintro ⟨op, h1, h2, h3⟩
        exact ⟨word, rest, f, op, rfl, h, h1, h2, h3⟩
      · rintro ⟨w, r, f', op, hw, hd, h1, h2, h3⟩
        cases hw
        rw [h] at hd
        cases hd
        exact ⟨op, h1, h2, h3⟩

@[simp] theorem Op.assemble_op (op : Op) (f : Fields) (c1 c2 c3 : Int) : (op.assemble f c1 c2 c3).op = op := by
  cases op <;> rfl

@[simp] theorem tag_mode_cell (o : Operand) : tag o.mode o.cell = o := by cases o <;> rfl

@[simp] theorem tag_cell (d : Nat) (v : Int) : (tag d v).cell = v := by unfold tag; split <;> rfl

end Sys2Proof
end

