-- ==== Sys2Proof/Laws/Memory.lean ====
section
/-! SUPPORT. Memory as data: read after write, the other cells unchanged, the canonical form kept, and the image read back. -/

namespace Sys2Proof.Machine

/-! ## Reading -/

@[simp] theorem Memory.get_nil (a : Nat) : Memory.get [] a = 0 := rfl

theorem Memory.get_cons (k : Nat) (v : Int) (m : Memory) (a : Nat) :
    Memory.get ((k, v) :: m) a = if k = a then v else m.get a := rfl

theorem Memory.get_filter_same (m : Memory) (a : Nat) :
    Memory.get (m.filter (fun p => decide (p.1 ≠ a))) a = 0 := by
  induction m with
  | nil => rfl
  | cons p m ih =>
    by_cases h : p.1 = a
    · simpa [List.filter_cons, h] using ih
    · obtain ⟨k, v⟩ := p
      simp only [List.filter_cons, ne_eq, h, not_false_eq_true, decide_true, if_true, Memory.get_cons]
      simpa [show k ≠ a from h] using ih

theorem Memory.get_filter_other (m : Memory) {a b : Nat} (h : b ≠ a) :
    Memory.get (m.filter (fun p => decide (p.1 ≠ a))) b = m.get b := by
  induction m with
  | nil => rfl
  | cons p m ih =>
    obtain ⟨k, v⟩ := p
    by_cases hk : k = a
    · subst hk
      simpa [List.filter_cons, Memory.get_cons, h.symm] using ih
    · simp only [List.filter_cons, ne_eq, hk, not_false_eq_true, decide_true, if_true, Memory.get_cons]
      split
      · rfl
      · simpa using ih

theorem Memory.get_insert_same (m : Memory) (a : Nat) (v : Int) : (Memory.insert m a v).get a = v := by
  induction m with
  | nil => simp [Memory.insert, Memory.get_cons]
  | cons p m ih =>
    obtain ⟨k, x⟩ := p
    simp only [Memory.insert]
    split
    · simp [Memory.get_cons]
    · split
      · simp [Memory.get_cons]
      · simp [Memory.get_cons, *]

theorem Memory.get_insert_other (m : Memory) {a b : Nat} (v : Int) (h : b ≠ a) :
    (Memory.insert m a v).get b = m.get b := by
  induction m with
  | nil => simp [Memory.insert, Memory.get_cons, h.symm]
  | cons p m ih =>
    obtain ⟨k, x⟩ := p
    simp only [Memory.insert]
    split
    · simp [Memory.get_cons, h.symm]
    · split
      · next hk => subst hk; simp [Memory.get_cons, h.symm]
      · simp [Memory.get_cons, ih]

@[simp] theorem Memory.get_set_same (m : Memory) (a : Nat) (v : Int) : (m.set a v).get a = v := by
  by_cases h : v = Memory.unlisted
  · simp only [Memory.set, h, if_true]
    exact Memory.get_filter_same m a
  · simp only [Memory.set, h, if_false]
    exact Memory.get_insert_same m a v

theorem Memory.get_set_other (m : Memory) {a b : Nat} (v : Int) (h : b ≠ a) : (m.set a v).get b = m.get b := by
  by_cases hv : v = Memory.unlisted
  · simp only [Memory.set, hv, if_true]
    exact Memory.get_filter_other m h
  · simp only [Memory.set, hv, if_false]
    exact Memory.get_insert_other m v h

/-! ## Listing -/

theorem Memory.mem_insert (m : Memory) (a : Nat) (v : Int) (p : Nat × Int) (h : p ∈ Memory.insert m a v) :
    p = (a, v) ∨ p ∈ m := by
  induction m with
  | nil => simpa [Memory.insert] using h
  | cons q m ih =>
    obtain ⟨k, x⟩ := q
    simp only [Memory.insert] at h
    split at h
    · simpa using h
    · split at h
      · rcases List.mem_cons.mp h with h | h
        · exact .inl h
        · exact .inr (List.mem_cons_of_mem _ h)
      · rcases List.mem_cons.mp h with h | h
        · exact .inr (h ▸ List.mem_cons_self)
        · exact (ih h).imp id (List.mem_cons_of_mem _)

/-- An entry after a write is the one written or an old one. -/
theorem Memory.mem_set (m : Memory) (a : Nat) (v : Int) (p : Nat × Int) (h : p ∈ m.set a v) :
    p = (a, v) ∨ p ∈ m := by
  by_cases hv : v = Memory.unlisted
  · simp only [Memory.set, hv, if_true] at h
    exact .inr (List.mem_of_mem_filter h)
  · simp only [Memory.set, hv, if_false] at h
    exact Memory.mem_insert m a v p h

/-- A cell reads as 0 or as a listed entry says. -/
theorem Memory.get_mem (m : Memory) (a : Nat) : m.get a = 0 ∨ (a, m.get a) ∈ m := by
  induction m with
  | nil => exact .inl rfl
  | cons q m ih =>
    obtain ⟨k, x⟩ := q
    by_cases h : k = a
    · subst h
      exact .inr (by simp [Memory.get_cons])
    · simp only [Memory.get_cons, h, if_false]
      exact ih.imp id (List.mem_cons_of_mem _)

/-! ## The canonical form -/

theorem Memory.pairwise_insert (m : Memory) (a : Nat) (v : Int) (h : m.Pairwise (fun p q => p.1 < q.1)) :
    (Memory.insert m a v).Pairwise (fun p q => p.1 < q.1) := by
  induction m with
  | nil => simp [Memory.insert]
  | cons q m ih =>
    obtain ⟨k, x⟩ := q
    obtain ⟨hk, hm⟩ := List.pairwise_cons.mp h
    simp only [Memory.insert]
    split
    · next ha =>
      refine List.pairwise_cons.mpr ⟨fun p hp => ?_, h⟩
      rcases List.mem_cons.mp hp with rfl | hp
      · exact ha
      · exact Nat.lt_trans ha (hk p hp)
    · split
      · next hka => subst hka; exact List.pairwise_cons.mpr ⟨hk, hm⟩
      · next ha hka =>
        refine List.pairwise_cons.mpr ⟨fun p hp => ?_, ih hm⟩
        rcases Memory.mem_insert m a v p hp with rfl | hp
        · show k < a
          omega
        · exact hk p hp

/-- A write keeps the canonical form. -/
theorem Memory.wf_set (m : Memory) (a : Nat) (v : Int) (h : m.wf) : (m.set a v).wf := by
  obtain ⟨hp, hz⟩ := h
  by_cases hv : v = Memory.unlisted
  · simp only [Memory.set, hv, if_true]
    exact ⟨hp.filter _, fun p hpm => hz p (List.mem_of_mem_filter hpm)⟩
  · simp only [Memory.set, hv, if_false]
    refine ⟨Memory.pairwise_insert m a v hp, fun p hpm => ?_⟩
    rcases Memory.mem_insert m a v p hpm with rfl | hpm
    · exact hv
    · exact hz p hpm

/-! ## The image -/

theorem Memory.mem_ofImageFrom (image : List Int) (k : Nat) (p : Nat × Int) (h : p ∈ Memory.ofImageFrom k image) :
    k ≤ p.1 ∧ p.1 < k + image.length ∧ p.2 ∈ image ∧ p.2 ≠ Memory.unlisted := by
  induction image generalizing k with
  | nil => simp [Memory.ofImageFrom] at h
  | cons v vs ih =>
    simp only [Memory.ofImageFrom] at h
    split at h
    · obtain ⟨h1, h2, h3, h4⟩ := ih (k + 1) h
      exact ⟨by omega, by simp only [List.length_cons]; omega, List.mem_cons_of_mem _ h3, h4⟩
    · next hv =>
      rcases List.mem_cons.mp h with rfl | h
      · exact ⟨Nat.le_refl _, by simp only [List.length_cons]; omega, List.mem_cons_self, hv⟩
      · obtain ⟨h1, h2, h3, h4⟩ := ih (k + 1) h
        exact ⟨by omega, by simp only [List.length_cons]; omega, List.mem_cons_of_mem _ h3, h4⟩

theorem Memory.wf_ofImageFrom (image : List Int) (k : Nat) : (Memory.ofImageFrom k image).wf := by
  refine ⟨?_, fun p h => (Memory.mem_ofImageFrom image k p h).2.2.2⟩
  induction image generalizing k with
  | nil => simp [Memory.ofImageFrom]
  | cons v vs ih =>
    simp only [Memory.ofImageFrom]
    split
    · exact ih (k + 1)
    · exact List.pairwise_cons.mpr ⟨fun p h => (Memory.mem_ofImageFrom vs (k + 1) p h).1, ih (k + 1)⟩

/-- Loading gives a memory in canonical form. -/
theorem Memory.wf_ofImage (image : List Int) : (Memory.ofImage image).wf := Memory.wf_ofImageFrom image 0

theorem Memory.get_eq_zero_of_not_listed (m : Memory) (a : Nat) (h : ∀ p ∈ m, p.1 ≠ a) : m.get a = 0 := by
  rcases Memory.get_mem m a with h0 | hm
  · exact h0
  · exact absurd rfl (h _ hm)

theorem Memory.get_ofImageFrom (image : List Int) (k i : Nat) :
    (Memory.ofImageFrom k image).get (k + i) = image.getD i 0 := by
  induction image generalizing k i with
  | nil => simp [Memory.ofImageFrom]
  | cons v vs ih =>
    cases i with
    | zero =>
      simp only [Memory.ofImageFrom]
      split
      · next hv =>
        rw [Memory.get_eq_zero_of_not_listed _ _ fun p hp => by have := (Memory.mem_ofImageFrom vs (k + 1) p hp).1; omega]
        simpa [Memory.unlisted] using hv.symm
      · simp [Memory.get_cons]
    | succ i =>
      have hk : k + (i + 1) = k + 1 + i := by omega
      simp only [Memory.ofImageFrom]
      split
      · rw [hk, ih]; simp
      · rw [Memory.get_cons, if_neg (by omega), hk, ih]; simp

/-- Every cell of a loaded memory holds its image value. -/
theorem Memory.get_ofImage (image : List Int) (i : Nat) : (Memory.ofImage image).get i = image.getD i 0 := by
  simpa [Memory.ofImage] using Memory.get_ofImageFrom image 0 i

/-! ## The cells of a state -/

@[simp] theorem State.memRead_memWrite_same (s : State) (a v : Int) : (s.memWrite a v).memRead a = v :=
  Memory.get_set_same _ _ _

theorem State.memRead_memWrite_other (s : State) {a b : Int} (v : Int) (ha : 0 ≤ a) (hb : 0 ≤ b) (h : b ≠ a) :
    (s.memWrite a v).memRead b = s.memRead b :=
  Memory.get_set_other _ _ (by omega)

end Sys2Proof.Machine
end

