-- ==== Sys2Proof/Laws/HostPort.lean ====
section
/-! SUPPORT. What the host's transactions can do: one lemma for each, and the fields of the state after reset. -/

namespace Sys2Proof.Machine

section Reset

variable (width : CellWidth) (memLen : Nat) (mem : Memory) (inputs : List Int)

@[simp] theorem State.atReset_width : (State.atReset width memLen mem inputs).width = width := rfl
@[simp] theorem State.atReset_memLen : (State.atReset width memLen mem inputs).memLen = memLen := rfl
@[simp] theorem State.atReset_mem : (State.atReset width memLen mem inputs).mem = mem := rfl
@[simp] theorem State.atReset_pc : (State.atReset width memLen mem inputs).pc = 0 := rfl
@[simp] theorem State.atReset_run : (State.atReset width memLen mem inputs).run = .running := rfl
@[simp] theorem State.atReset_err : (State.atReset width memLen mem inputs).err = none := rfl
@[simp] theorem State.atReset_result : (State.atReset width memLen mem inputs).result = none := rfl
@[simp] theorem State.atReset_outlog : (State.atReset width memLen mem inputs).outlog = [] := rfl
@[simp] theorem State.atReset_inChan : (State.atReset width memLen mem inputs).inChan = inputs := rfl
@[simp] theorem State.atReset_outChan : (State.atReset width memLen mem inputs).outChan = [] := rfl

end Reset

/-- A supplied value is taken exactly when it is a cell value, at the end of the queue. -/
theorem State.supplyInput_eq_some_iff (s t : State) (v : Int) :
    s.supplyInput v = some t ↔ s.width.fits v = true ∧ t = { s with inChan := s.inChan ++ [v] } := by
  simp only [State.supplyInput, Option.ite_none_right_eq_some, Option.some.injEq, eq_comm (a := t)]

/-- A reset without a load is done exactly when every queued value is a cell value. -/
theorem State.resetWithoutReload_eq_some_iff (s t : State) (inputs : List Int) :
    s.resetWithoutReload inputs = some t ↔
      (∀ v ∈ inputs, s.width.fits v = true) ∧ t = State.atReset s.width s.memLen s.mem inputs := by
  simp only [State.resetWithoutReload, Option.ite_none_right_eq_some, Option.some.injEq, List.all_eq_true, eq_comm (a := t)]

end Sys2Proof.Machine
end

