-- ==== Sys2Proof/Laws/State.lean ====
section
/-! SUPPORT. What each operation does to each field of the state, one lemma per field, so that no proof unfolds an update. -/

namespace Sys2Proof.Machine

variable (s : State)

@[simp] theorem State.memWrite_width (a v : Int) : (s.memWrite a v).width = s.width := rfl
@[simp] theorem State.memWrite_memLen (a v : Int) : (s.memWrite a v).memLen = s.memLen := rfl
@[simp] theorem State.memWrite_mem (a v : Int) : (s.memWrite a v).mem = s.mem.set a.toNat v := rfl
@[simp] theorem State.memWrite_pc (a v : Int) : (s.memWrite a v).pc = s.pc := rfl
@[simp] theorem State.memWrite_run (a v : Int) : (s.memWrite a v).run = s.run := rfl
@[simp] theorem State.memWrite_err (a v : Int) : (s.memWrite a v).err = s.err := rfl
@[simp] theorem State.memWrite_result (a v : Int) : (s.memWrite a v).result = s.result := rfl
@[simp] theorem State.memWrite_outlog (a v : Int) : (s.memWrite a v).outlog = s.outlog := rfl
@[simp] theorem State.memWrite_inChan (a v : Int) : (s.memWrite a v).inChan = s.inChan := rfl
@[simp] theorem State.memWrite_outChan (a v : Int) : (s.memWrite a v).outChan = s.outChan := rfl

@[simp] theorem State.advance_width (n : Nat) : (s.advance n).width = s.width := rfl
@[simp] theorem State.advance_memLen (n : Nat) : (s.advance n).memLen = s.memLen := rfl
@[simp] theorem State.advance_mem (n : Nat) : (s.advance n).mem = s.mem := rfl
@[simp] theorem State.advance_pc (n : Nat) : (s.advance n).pc = s.pc + (n : Int) := rfl
@[simp] theorem State.advance_run (n : Nat) : (s.advance n).run = s.run := rfl
@[simp] theorem State.advance_err (n : Nat) : (s.advance n).err = s.err := rfl
@[simp] theorem State.advance_result (n : Nat) : (s.advance n).result = s.result := rfl
@[simp] theorem State.advance_outlog (n : Nat) : (s.advance n).outlog = s.outlog := rfl
@[simp] theorem State.advance_inChan (n : Nat) : (s.advance n).inChan = s.inChan := rfl
@[simp] theorem State.advance_outChan (n : Nat) : (s.advance n).outChan = s.outChan := rfl

@[simp] theorem State.jumpTo_width (t : Int) : (s.jumpTo t).width = s.width := rfl
@[simp] theorem State.jumpTo_memLen (t : Int) : (s.jumpTo t).memLen = s.memLen := rfl
@[simp] theorem State.jumpTo_mem (t : Int) : (s.jumpTo t).mem = s.mem := rfl
@[simp] theorem State.jumpTo_pc (t : Int) : (s.jumpTo t).pc = t := rfl
@[simp] theorem State.jumpTo_run (t : Int) : (s.jumpTo t).run = s.run := rfl
@[simp] theorem State.jumpTo_err (t : Int) : (s.jumpTo t).err = s.err := rfl
@[simp] theorem State.jumpTo_result (t : Int) : (s.jumpTo t).result = s.result := rfl
@[simp] theorem State.jumpTo_outlog (t : Int) : (s.jumpTo t).outlog = s.outlog := rfl
@[simp] theorem State.jumpTo_inChan (t : Int) : (s.jumpTo t).inChan = s.inChan := rfl
@[simp] theorem State.jumpTo_outChan (t : Int) : (s.jumpTo t).outChan = s.outChan := rfl

@[simp] theorem State.halt_width : (s.halt).width = s.width := rfl
@[simp] theorem State.halt_memLen : (s.halt).memLen = s.memLen := rfl
@[simp] theorem State.halt_mem : (s.halt).mem = s.mem := rfl
@[simp] theorem State.halt_pc : (s.halt).pc = s.pc := rfl
@[simp] theorem State.halt_run : (s.halt).run = .halted := rfl
@[simp] theorem State.halt_err : (s.halt).err = s.err := rfl
@[simp] theorem State.halt_result : (s.halt).result = some (s.memRead 0) := rfl
@[simp] theorem State.halt_outlog : (s.halt).outlog = s.outlog := rfl
@[simp] theorem State.halt_inChan : (s.halt).inChan = s.inChan := rfl
@[simp] theorem State.halt_outChan : (s.halt).outChan = s.outChan := rfl

@[simp] theorem State.deliver_width (v : Int) : (s.deliver v).width = s.width := rfl
@[simp] theorem State.deliver_memLen (v : Int) : (s.deliver v).memLen = s.memLen := rfl
@[simp] theorem State.deliver_mem (v : Int) : (s.deliver v).mem = s.mem := rfl
@[simp] theorem State.deliver_pc (v : Int) : (s.deliver v).pc = s.pc := rfl
@[simp] theorem State.deliver_run (v : Int) : (s.deliver v).run = s.run := rfl
@[simp] theorem State.deliver_err (v : Int) : (s.deliver v).err = s.err := rfl
@[simp] theorem State.deliver_result (v : Int) : (s.deliver v).result = s.result := rfl
@[simp] theorem State.deliver_outlog (v : Int) : (s.deliver v).outlog = s.outlog ++ [v] := rfl
@[simp] theorem State.deliver_inChan (v : Int) : (s.deliver v).inChan = s.inChan := rfl
@[simp] theorem State.deliver_outChan (v : Int) : (s.deliver v).outChan = s.outChan ++ [v] := rfl

@[simp] theorem State.raise_width (c : Cause) : (s.raise c).width = s.width := rfl
@[simp] theorem State.raise_memLen (c : Cause) : (s.raise c).memLen = s.memLen := rfl
@[simp] theorem State.raise_mem (c : Cause) : (s.raise c).mem = s.mem := rfl
@[simp] theorem State.raise_pc (c : Cause) : (s.raise c).pc = s.pc := rfl
@[simp] theorem State.raise_run (c : Cause) : (s.raise c).run = .faulted := rfl
@[simp] theorem State.raise_err (c : Cause) : (s.raise c).err = some c := rfl
@[simp] theorem State.raise_result (c : Cause) : (s.raise c).result = s.result := rfl
@[simp] theorem State.raise_outlog (c : Cause) : (s.raise c).outlog = s.outlog := rfl
@[simp] theorem State.raise_inChan (c : Cause) : (s.raise c).inChan = s.inChan := rfl
@[simp] theorem State.raise_outChan (c : Cause) : (s.raise c).outChan = s.outChan := rfl

@[simp] theorem State.advance_memRead (n : Nat) (k : Int) : (s.advance n).memRead k = s.memRead k := rfl
@[simp] theorem State.jumpTo_memRead (t : Int) (k : Int) : (s.jumpTo t).memRead k = s.memRead k := rfl
@[simp] theorem State.halt_memRead (k : Int) : (s.halt).memRead k = s.memRead k := rfl
@[simp] theorem State.deliver_memRead (v : Int) (k : Int) : (s.deliver v).memRead k = s.memRead k := rfl
@[simp] theorem State.raise_memRead (c : Cause) (k : Int) : (s.raise c).memRead k = s.memRead k := rfl

@[simp] theorem State.withInputs_width (q : List Int) : (s.withInputs q).width = s.width := rfl
@[simp] theorem State.withInputs_memLen (q : List Int) : (s.withInputs q).memLen = s.memLen := rfl
@[simp] theorem State.withInputs_mem (q : List Int) : (s.withInputs q).mem = s.mem := rfl
@[simp] theorem State.withInputs_pc (q : List Int) : (s.withInputs q).pc = s.pc := rfl
@[simp] theorem State.withInputs_run (q : List Int) : (s.withInputs q).run = s.run := rfl
@[simp] theorem State.withInputs_err (q : List Int) : (s.withInputs q).err = s.err := rfl
@[simp] theorem State.withInputs_result (q : List Int) : (s.withInputs q).result = s.result := rfl
@[simp] theorem State.withInputs_outlog (q : List Int) : (s.withInputs q).outlog = s.outlog := rfl
@[simp] theorem State.withInputs_inChan (q : List Int) : (s.withInputs q).inChan = q := rfl
@[simp] theorem State.withInputs_outChan (q : List Int) : (s.withInputs q).outChan = s.outChan := rfl
@[simp] theorem State.withInputs_memRead (q : List Int) (k : Int) : (s.withInputs q).memRead k = s.memRead k := rfl

/-- A valid address is one from 0 to `N - 1`. -/
theorem State.inBounds_iff (a : Int) : s.inBounds a = true ↔ 0 ≤ a ∧ a < (s.memLen : Int) := by
  simp [State.inBounds]

/-- Bounds depend on the memory length alone. -/
theorem State.inBounds_congr {s t : State} (h : t.memLen = s.memLen) (a : Int) : t.inBounds a = s.inBounds a := by
  simp [State.inBounds, h]

/-- Everything `takeInput` can do. -/
theorem State.takeInput_eq_some_iff (v : Int) (t : State) :
    s.takeInput = some (v, t) ↔ ∃ rest, s.inChan = v :: rest ∧ t = s.withInputs rest := by
  cases h : s.inChan with
  | nil => simp [State.takeInput, h]
  | cons w rest =>
    simp only [State.takeInput, h, Option.some.injEq, Prod.mk.injEq, List.cons.injEq]
    constructor
    · rintro ⟨rfl, rfl⟩
      exact ⟨rest, ⟨rfl, rfl⟩, rfl⟩
    · rintro ⟨_, ⟨rfl, rfl⟩, rfl⟩
      exact ⟨rfl, rfl⟩

/-- `takeInput` finds nothing exactly while the input channel is empty. -/
theorem State.takeInput_eq_none_iff : s.takeInput = none ↔ s.inChan = [] := by
  cases h : s.inChan <;> simp [State.takeInput, h]

end Sys2Proof.Machine
end

