-- ==== Sys2Proof/Laws/Operands.lean ====
section
/-! SUPPORT. The operand resolver, the ALU and the two shared cycles, each with one lemma for success and one for its faults. -/

namespace Sys2Proof.Machine

/-- Every way an operand can be read. -/
theorem readOperand_eq_ok_iff (s : State) (o : Operand) (x : Int) :
    readOperand s o = .ok x ↔ o = .imm x ∨ ∃ a, o = .pos a ∧ s.inBounds a = true ∧ x = s.memRead a := by
  cases o with
  | imm v => simp [readOperand]
  | pos a => cases h : s.inBounds a <;> simp [readOperand, h, eq_comm (a := x)]

/-- The only fault of a read: a Position outside memory. -/
theorem readOperand_eq_error_iff (s : State) (o : Operand) (c : Cause) :
    readOperand s o = .error c ↔ ∃ a, o = .pos a ∧ s.inBounds a = false ∧ c = .outOfBounds a := by
  cases o with
  | imm v => simp [readOperand]
  | pos a => cases h : s.inBounds a <;> simp [readOperand, h, eq_comm (a := c)]

/-- Every way an operand can be written. -/
theorem writeOperand_eq_ok_iff (s t : State) (o : Operand) (v : Int) :
    writeOperand s o v = .ok t ↔ ∃ a, o = .pos a ∧ s.inBounds a = true ∧ t = s.memWrite a v := by
  cases o with
  | imm w => simp [writeOperand]
  | pos a => cases h : s.inBounds a <;> simp [writeOperand, h, eq_comm (a := t)]

/-- Every way a write can fault. -/
theorem writeOperand_eq_error_iff (s : State) (o : Operand) (v : Int) (c : Cause) :
    writeOperand s o v = .error c ↔
      (∃ w, o = .imm w) ∧ c = .writeToImmediate ∨ ∃ a, o = .pos a ∧ s.inBounds a = false ∧ c = .outOfBounds a := by
  cases o with
  | imm w => simp [writeOperand, eq_comm (a := c)]
  | pos a => cases h : s.inBounds a <;> simp [writeOperand, h, eq_comm (a := c)]

theorem narrow_eq_ok_iff (width : CellWidth) (r v : Int) : narrow width r = .ok v ↔ width.fits r = true ∧ v = r := by
  unfold narrow
  split <;> simp [*, eq_comm]

theorem narrow_eq_error_iff (width : CellWidth) (r : Int) (c : Cause) :
    narrow width r = .error c ↔ width.fits r = false ∧ c = .arithmeticOverflow := by
  unfold narrow
  split <;> simp [*, eq_comm]

/-- Every way the cycle of format T can complete: both operands read, the ALU answers, one cell written, the pc advanced by 4. -/
theorem threeOperand_eq_ok_iff (alu : Int → Int → Except Cause Int) (a b dest : Operand) (s t : State) :
    threeOperand alu a b dest s = .ok t ↔
      ∃ x y r d, readOperand s a = .ok x ∧ readOperand s b = .ok y ∧ alu x y = .ok r ∧ dest = .pos d ∧ s.inBounds d = true ∧
        t = (s.memWrite d r).advance 4 := by
  unfold threeOperand
  cases ha : readOperand s a with
  | error c => simp
  | ok x =>
    cases hb : readOperand s b with
    | error c => simp
    | ok y =>
      cases hr : alu x y with
      | error c => simp [hr]
      | ok r =>
        cases hw : writeOperand s dest r with
        | error c =>
          simp only [hr, hw, reduceCtorEq, false_iff]
          rintro ⟨x', y', r', d, hx, hy, hr', rfl, hd, -⟩
          cases hx
          cases hy
          rw [hr] at hr'
          cases hr'
          simp only [writeOperand, if_pos hd, reduceCtorEq] at hw
        | ok u =>
          obtain ⟨d, rfl, hd, rfl⟩ := (writeOperand_eq_ok_iff _ _ _ _).mp hw
          simp only [hr, hw, Except.ok.injEq]
          constructor
          · rintro rfl
            exact ⟨x, y, r, d, rfl, rfl, hr, rfl, hd, rfl⟩
          · rintro ⟨x', y', r', d', rfl, rfl, hr', hdd, -, rfl⟩
            rw [hr] at hr'
            cases hr'
            cases hdd
            rfl

/-- Every way the cycle of format T can fault, in the order of its phases. -/
theorem threeOperand_eq_error_iff (alu : Int → Int → Except Cause Int) (a b dest : Operand) (s : State) (c : Cause) :
    threeOperand alu a b dest s = .error c ↔
      readOperand s a = .error c ∨
      ∃ x, readOperand s a = .ok x ∧ (readOperand s b = .error c ∨
        ∃ y, readOperand s b = .ok y ∧ (alu x y = .error c ∨ ∃ r, alu x y = .ok r ∧ writeOperand s dest r = .error c)) := by
  unfold threeOperand
  cases ha : readOperand s a with
  | error e => simp
  | ok x =>
    cases hb : readOperand s b with
    | error e => simp
    | ok y =>
      cases hr : alu x y with
      | error e => simp [hr]
      | ok r => cases hw : writeOperand s dest r <;> simp [hr, hw]

/-- Every way the cycle of format J can complete. -/
theorem conditionalJump_eq_ok_iff (taken : Int → Bool) (cond target : Operand) (s t : State) :
    conditionalJump taken cond target s = .ok t ↔
      ∃ c, readOperand s cond = .ok c ∧
        (taken c = true ∧ (∃ v, readOperand s target = .ok v ∧ t = s.jumpTo v) ∨ taken c = false ∧ t = s.advance 3) := by
  unfold conditionalJump
  cases hc : readOperand s cond with
  | error e => simp
  | ok c =>
    by_cases h : taken c = true
    · cases ht : readOperand s target with
      | error e => simp [h]
      | ok v => simpa [h] using eq_comm
    · simpa [h] using eq_comm

/-- Every way the cycle of format J can fault. -/
theorem conditionalJump_eq_error_iff (taken : Int → Bool) (cond target : Operand) (s : State) (e : Cause) :
    conditionalJump taken cond target s = .error e ↔
      readOperand s cond = .error e ∨ ∃ c, readOperand s cond = .ok c ∧ taken c = true ∧ readOperand s target = .error e := by
  unfold conditionalJump
  cases hc : readOperand s cond with
  | error e => simp
  | ok c =>
    by_cases h : taken c = true
    · cases ht : readOperand s target <;> simp [h]
    · simp [h]

end Sys2Proof.Machine
end

