-- ==== Sys2Proof/Laws/PerInstr.lean ====
section
/-! SUPPORT. A family of statements about an instruction as syntax: its encoding has the instruction's length, one to four
cells (R60, R67), and its canonical word lies in the range of the legal words, 1 to 11199 (R72). -/

namespace Sys2Proof.Laws.EncodedLength

/-- The statement for one instruction. -/
def Statement (i : Instr) : Prop :=
  (encode i).length = i.length ∧ (1 ≤ i.length ∧ i.length ≤ 4) ∧ 1 ≤ encodeWord i.fields ∧ encodeWord i.fields ≤ 11199

theorem mode_le (o : Operand) : o.mode ≤ 1 := by cases o <;> simp [Operand.mode]

theorem length_bounds (i : Instr) : 1 ≤ i.length ∧ i.length ≤ 4 := by
  unfold Instr.length
  cases i.op <;> decide

theorem word_bounds (op d1 d2 d3 : Nat) (ho : 1 ≤ op ∧ op ≤ 99) (h1 : d1 ≤ 1) (h2 : d2 ≤ 1) (h3 : d3 ≤ 1) :
    1 ≤ encodeWord ⟨op, d1, d2, d3⟩ ∧ encodeWord ⟨op, d1, d2, d3⟩ ≤ 11199 := by
  simp only [encodeWord]
  omega

theorem add (a b dest : Operand) : Statement (.add a b dest) :=
  ⟨rfl, length_bounds _, word_bounds _ _ _ _ (by decide) (mode_le a) (mode_le b) (mode_le dest)⟩

theorem multiply (a b dest : Operand) : Statement (.multiply a b dest) :=
  ⟨rfl, length_bounds _, word_bounds _ _ _ _ (by decide) (mode_le a) (mode_le b) (mode_le dest)⟩

theorem input (dest : Int) : Statement (.input dest) :=
  ⟨rfl, length_bounds _, word_bounds _ _ _ _ (by decide) (by decide) (by decide) (by decide)⟩

theorem output (src : Int) : Statement (.output src) :=
  ⟨rfl, length_bounds _, word_bounds _ _ _ _ (by decide) (by decide) (by decide) (by decide)⟩

theorem jumpIfTrue (cond target : Operand) : Statement (.jumpIfTrue cond target) :=
  ⟨rfl, length_bounds _, word_bounds _ _ _ _ (by decide) (mode_le cond) (mode_le target) (by decide)⟩

theorem jumpIfFalse (cond target : Operand) : Statement (.jumpIfFalse cond target) :=
  ⟨rfl, length_bounds _, word_bounds _ _ _ _ (by decide) (mode_le cond) (mode_le target) (by decide)⟩

theorem lessThan (a b dest : Operand) : Statement (.lessThan a b dest) :=
  ⟨rfl, length_bounds _, word_bounds _ _ _ _ (by decide) (mode_le a) (mode_le b) (mode_le dest)⟩

theorem equal (a b dest : Operand) : Statement (.equal a b dest) :=
  ⟨rfl, length_bounds _, word_bounds _ _ _ _ (by decide) (mode_le a) (mode_le b) (mode_le dest)⟩

theorem halt : Statement .halt :=
  ⟨rfl, length_bounds _, word_bounds _ _ _ _ (by decide) (by decide) (by decide) (by decide)⟩

end Sys2Proof.Laws.EncodedLength
end

