-- ==== Sys2Proof/Laws/Step.lean ====
section
/-! SUPPORT. What a step can do, said once: the inversion of `complete`, of each meaning, of `exec`, of `fetch` and of `step`. -/

namespace Sys2Proof.Machine

/-- A completed cycle gives the state EXECUTE gave, or the fault entry. -/
theorem State.complete_eq_next_iff (s t : State) (r : Except Cause State) :
    s.complete r = .next t ↔ r = .ok t ∨ ∃ c, r = .error c ∧ t = s.raise c := by
  cases r with
  | ok u => simp [State.complete]
  | error c => simp [State.complete, eq_comm]

@[simp] theorem State.complete_ne_fault (s : State) (r : Except Cause State) (f : Fault) : s.complete r ≠ .fault f := by
  cases r <;> simp [State.complete]

@[simp] theorem State.complete_ne_refused (s : State) (r : Except Cause State) (q : Refusal) : s.complete r ≠ .refused q := by
  cases r <;> simp [State.complete]

/-- Every way Input can go on: a value taken and written, or taken and lost to a bad address. -/
theorem execInput_eq_next_iff (dest : Int) (s t : State) :
    execInput dest s = .next t ↔
      ∃ v rest, s.inChan = v :: rest ∧
        (s.inBounds dest = true ∧ t = ((s.withInputs rest).memWrite dest v).advance 2 ∨
          s.inBounds dest = false ∧ t = (s.withInputs rest).raise (.outOfBounds dest)) := by
  unfold execInput State.takeInput
  cases h : s.inChan with
  | nil => simp
  | cons v rest =>
    have hb : (s.withInputs rest).inBounds dest = s.inBounds dest := rfl
    cases hd : s.inBounds dest <;> simp [writeOperand, hb, hd, State.complete, eq_comm (a := t)]

/-- Input stops exactly while no value is there. -/
theorem execInput_eq_fault_iff (dest : Int) (s : State) (f : Fault) :
    execInput dest s = .fault f ↔ s.inChan = [] ∧ f = .waitingForInput := by
  unfold execInput State.takeInput
  cases h : s.inChan with
  | nil => simp [eq_comm]
  | cons v rest => cases hw : writeOperand (s.withInputs rest) (.pos dest) v <;> simp [hw]

theorem execInput_ne_refused (dest : Int) (s : State) (q : Refusal) : execInput dest s ≠ .refused q := by
  unfold execInput State.takeInput
  cases h : s.inChan with
  | nil => simp
  | cons v rest => cases hw : writeOperand (s.withInputs rest) (.pos dest) v <;> simp [hw]

/-- Every way Output can go on. -/
theorem execOutput_eq_next_iff (src : Int) (s t : State) :
    execOutput src s = .next t ↔
      s.inBounds src = true ∧ t = (s.deliver (s.memRead src)).advance 2 ∨ s.inBounds src = false ∧ t = s.raise (.outOfBounds src) := by
  unfold execOutput
  cases h : s.inBounds src <;> simp [readOperand, h, State.complete, eq_comm (a := t)]

theorem execHalt_eq_next_iff (s t : State) : execHalt s = .next t ↔ t = s.halt := by
  simp [execHalt, State.complete, eq_comm]

/-- No meaning refuses. -/
theorem exec_ne_refused (i : Instr) (s : State) (q : Refusal) : exec i s ≠ .refused q := by
  cases i with
  | input dest => exact execInput_ne_refused dest s q
  | output src =>
    simp only [exec, execOutput]
    split <;> simp
  | add a b dest => simp [exec, execAdd]
  | multiply a b dest => simp [exec, execMultiply]
  | jumpIfTrue cond target => simp [exec, execJumpIfTrue]
  | jumpIfFalse cond target => simp [exec, execJumpIfFalse]
  | lessThan a b dest => simp [exec, execLessThan]
  | equal a b dest => simp [exec, execEqual]
  | halt => simp [exec, execHalt]

/-- The only meaning that stops is Input's, while no value is there. -/
theorem exec_eq_fault_iff (i : Instr) (s : State) (f : Fault) :
    exec i s = .fault f ↔ (∃ dest, i = .input dest) ∧ s.inChan = [] ∧ f = .waitingForInput := by
  cases i with
  | input dest => simp [exec, execInput_eq_fault_iff]
  | output src =>
    simp only [exec, execOutput]
    split <;> simp
  | add a b dest => simp [exec, execAdd]
  | multiply a b dest => simp [exec, execMultiply]
  | jumpIfTrue cond target => simp [exec, execJumpIfTrue]
  | jumpIfFalse cond target => simp [exec, execJumpIfFalse]
  | lessThan a b dest => simp [exec, execLessThan]
  | equal a b dest => simp [exec, execEqual]
  | halt => simp [exec, execHalt]

/-- Every way `exec` can go on: the fault entry (over the state with Input's value taken), or one of five completed forms. -/
theorem exec_next_cases {i : Instr} {s t : State} (h : exec i s = .next t) :
    (∃ c, t = s.raise c) ∨
    (∃ dest v rest, i = .input dest ∧ s.inChan = v :: rest ∧ s.inBounds dest = false ∧
      t = (s.withInputs rest).raise (.outOfBounds dest)) ∨
    (∃ a b d r, (i = .add a b (.pos d) ∨ i = .multiply a b (.pos d) ∨ i = .lessThan a b (.pos d) ∨ i = .equal a b (.pos d)) ∧
      s.inBounds d = true ∧ (s.width.fits r = true ∨ r = 0 ∨ r = 1) ∧ t = (s.memWrite d r).advance 4) ∨
    (∃ dest v rest, i = .input dest ∧ s.inChan = v :: rest ∧ s.inBounds dest = true ∧
      t = ((s.withInputs rest).memWrite dest v).advance 2) ∨
    (∃ src, i = .output src ∧ s.inBounds src = true ∧ t = (s.deliver (s.memRead src)).advance 2) ∨
    (∃ cond target, (i = .jumpIfTrue cond target ∨ i = .jumpIfFalse cond target) ∧
      ((∃ v, readOperand s target = .ok v ∧ t = s.jumpTo v) ∨ t = s.advance 3)) ∨
    (i = .halt ∧ t = s.halt) := by
  cases i with
  | add a b dest =>
    rcases (s.complete_eq_next_iff t _).mp h with h | ⟨c, -, rfl⟩
    · obtain ⟨x, y, r, d, -, -, hr, rfl, hd, rfl⟩ := (threeOperand_eq_ok_iff _ _ _ _ _ _).mp h
      obtain ⟨hf, rfl⟩ := (narrow_eq_ok_iff _ _ _).mp hr
      exact .inr (.inr (.inl ⟨a, b, d, _, .inl rfl, hd, .inl hf, rfl⟩))
    · exact .inl ⟨c, rfl⟩
  | multiply a b dest =>
    rcases (s.complete_eq_next_iff t _).mp h with h | ⟨c, -, rfl⟩
    · obtain ⟨x, y, r, d, -, -, hr, rfl, hd, rfl⟩ := (threeOperand_eq_ok_iff _ _ _ _ _ _).mp h
      obtain ⟨hf, rfl⟩ := (narrow_eq_ok_iff _ _ _).mp hr
      exact .inr (.inr (.inl ⟨a, b, d, _, .inr (.inl rfl), hd, .inl hf, rfl⟩))
    · exact .inl ⟨c, rfl⟩
  | lessThan a b dest =>
    rcases (s.complete_eq_next_iff t _).mp h with h | ⟨c, -, rfl⟩
    · obtain ⟨x, y, r, d, -, -, hr, rfl, hd, rfl⟩ := (threeOperand_eq_ok_iff _ _ _ _ _ _).mp h
      have hr : r = 0 ∨ r = 1 := by
        cases hr
        unfold truth
        split <;> simp
      exact .inr (.inr (.inl ⟨a, b, d, _, .inr (.inr (.inl rfl)), hd, .inr hr, rfl⟩))
    · exact .inl ⟨c, rfl⟩
  | equal a b dest =>
    rcases (s.complete_eq_next_iff t _).mp h with h | ⟨c, -, rfl⟩
    · obtain ⟨x, y, r, d, -, -, hr, rfl, hd, rfl⟩ := (threeOperand_eq_ok_iff _ _ _ _ _ _).mp h
      have hr : r = 0 ∨ r = 1 := by
        cases hr
        unfold truth
        split <;> simp
      exact .inr (.inr (.inl ⟨a, b, d, _, .inr (.inr (.inr rfl)), hd, .inr hr, rfl⟩))
    · exact .inl ⟨c, rfl⟩
  | input dest =>
    obtain ⟨v, rest, hin, ⟨hd, rfl⟩ | ⟨hd, rfl⟩⟩ := (execInput_eq_next_iff dest s t).mp h
    · exact .inr (.inr (.inr (.inl ⟨dest, v, rest, rfl, hin, hd, rfl⟩)))
    · exact .inr (.inl ⟨dest, v, rest, rfl, hin, hd, rfl⟩)
  | output src =>
    rcases (execOutput_eq_next_iff src s t).mp h with ⟨hs, rfl⟩ | ⟨-, rfl⟩
    · exact .inr (.inr (.inr (.inr (.inl ⟨src, rfl, hs, rfl⟩))))
    · exact .inl ⟨_, rfl⟩
  | jumpIfTrue cond target =>
    rcases (s.complete_eq_next_iff t _).mp h with h | ⟨c, -, rfl⟩
    · obtain ⟨c, -, ⟨-, hv⟩ | ⟨-, rfl⟩⟩ := (conditionalJump_eq_ok_iff _ _ _ _ _).mp h
      · exact .inr (.inr (.inr (.inr (.inr (.inl ⟨cond, target, .inl rfl, .inl hv⟩)))))
      · exact .inr (.inr (.inr (.inr (.inr (.inl ⟨cond, target, .inl rfl, .inr rfl⟩)))))
    · exact .inl ⟨c, rfl⟩
  | jumpIfFalse cond target =>
    rcases (s.complete_eq_next_iff t _).mp h with h | ⟨c, -, rfl⟩
    · obtain ⟨c, -, ⟨-, hv⟩ | ⟨-, rfl⟩⟩ := (conditionalJump_eq_ok_iff _ _ _ _ _).mp h
      · exact .inr (.inr (.inr (.inr (.inr (.inl ⟨cond, target, .inr rfl, .inl hv⟩)))))
      · exact .inr (.inr (.inr (.inr (.inr (.inl ⟨cond, target, .inr rfl, .inr rfl⟩)))))
    · exact .inl ⟨c, rfl⟩
  | halt => exact .inr (.inr (.inr (.inr (.inr (.inr ⟨rfl, (execHalt_eq_next_iff s t).mp h⟩)))))

/-- Every way FETCH, DECODE and RESOLVE can give an instruction. -/
theorem State.fetch_eq_ok_iff (s : State) (i : Instr) :
    s.fetch = .ok i ↔ s.inBounds s.pc = true ∧ decode s.window = .ok i := by
  unfold State.fetch
  cases h : s.inBounds s.pc <;> simp

@[simp] theorem State.window_length (s : State) : s.window.length = min 4 (s.memLen - s.pc.toNat) := by
  simp [State.window]

theorem State.window_getD (s : State) (k : Nat) (h : k < min 4 (s.memLen - s.pc.toNat)) :
    s.window.getD k 0 = s.memRead (s.pc + (k : Int)) := by
  simp [State.window, List.getD, List.getElem?_range h]

/-- Every way a step can go on: the fault entry of a fetch, or the meaning of the fetched instruction. -/
theorem step_next_cases {s t : State} (h : step s = .next t) :
    s.run = .running ∧ ((∃ c, s.fetch = .error c ∧ t = s.raise c) ∨ ∃ i, s.fetch = .ok i ∧ exec i s = .next t) := by
  unfold step cycle at h
  cases hr : s.run with
  | halted => simp [hr] at h
  | faulted => simp [hr] at h
  | running =>
    refine ⟨rfl, ?_⟩
    cases hf : s.fetch with
    | error c =>
      simp only [hr, hf, Host.Outcome.next.injEq] at h
      exact .inl ⟨c, rfl, h.symm⟩
    | ok i =>
      simp only [hr, hf] at h
      exact .inr ⟨i, rfl, h⟩

end Sys2Proof.Machine
end

