-- ==== Sys2Proof/Laws/Ranges.lean ====
section
/-! SUPPORT. Ranges: what fits a cell, which addresses are valid, and where a fetched instruction lies. -/

namespace Sys2Proof

theorem CellWidth.fits_bits_iff (w : Nat) (v : Int) :
    (CellWidth.bits w).fits v = true ↔ -(2 ^ (w - 1)) ≤ v ∧ v ≤ 2 ^ (w - 1) - 1 := by
  simp [CellWidth.fits]

/-- The cell range has no holes. -/
theorem CellWidth.fits_between (width : CellWidth) {a b c : Int} (ha : width.fits a = true) (hc : width.fits c = true)
    (h1 : a ≤ b) (h2 : b ≤ c) : width.fits b = true := by
  cases width with
  | unbounded => rfl
  | bits w => rw [CellWidth.fits_bits_iff] at *; omega

/-- Every instruction word and small value fits a cell of a legal width (R6). -/
theorem CellWidth.fits_small (width : CellWidth) (h : width.legal = true) {b : Int} (h1 : -100000 ≤ b) (h2 : b ≤ 99999) :
    width.fits b = true := by
  cases width with
  | unbounded => rfl
  | bits w =>
    have hw : 18 ≤ w := by simpa [CellWidth.legal] using h
    have hp : (2 : Int) ^ 17 ≤ 2 ^ (w - 1) := pow_le_pow_right₀ (by decide) (by omega)
    rw [CellWidth.fits_bits_iff]
    norm_num at hp
    omega

end Sys2Proof

namespace Sys2Proof.Machine

theorem State.inBounds_of_range {s : State} {a : Int} (h0 : 0 ≤ a) (h1 : a < s.memLen) : s.inBounds a = true :=
  (s.inBounds_iff a).mpr ⟨h0, h1⟩

theorem State.inBounds_eq_false_of_range {s : State} {a : Int} (h : a < 0 ∨ (s.memLen : Int) ≤ a) : s.inBounds a = false := by
  rw [Bool.eq_false_iff]
  intro hb
  have := (s.inBounds_iff a).mp hb
  omega

/-- The window of a pc inside memory starts with the word at the pc. -/
theorem State.window_eq_cons {s : State} (h : s.inBounds s.pc = true) : ∃ rest, s.window = s.memRead s.pc :: rest := by
  have hp := (s.inBounds_iff _).mp h
  have hl := s.window_length
  have h0 := s.window_getD 0 (by omega)
  cases hw : s.window with
  | nil => simp [hw] at hl; omega
  | cons w rest => exact ⟨rest, by simpa [hw] using h0⟩

/-- A fetched instruction lies whole inside memory (R67). -/
theorem State.fetch_range {s : State} {i : Instr} (h : s.fetch = .ok i) : 0 ≤ s.pc ∧ s.pc + i.length ≤ s.memLen := by
  obtain ⟨hb, hd⟩ := (State.fetch_eq_ok_iff _ _).mp h
  have hb := (s.inBounds_iff _).mp hb
  obtain ⟨w, r, f, op, -, -, -, hlen, rfl⟩ := (decode_eq_ok_iff _ _).mp hd
  simp only [State.window_length] at hlen
  simp only [Instr.length, Op.assemble_op]
  omega

end Sys2Proof.Machine
end

