-- ==== Sys2Proof/Tests/Slice0.lean ====
section
/-! SUPPORT. Tests of single steps and decodings, each with its expected result from the spec's text, and for every obligation with
hypotheses a witness that meets them. -/

namespace Sys2Proof.Tests

open Sys2Proof.Machine Sys2Proof.Safety

/-! ## Helpers -/

/-- Reset with an image and inputs, 64-bit cells. -/
def start (image inputs : List Int) : State := State.boot (.bits 64) image inputs

/-- What a test looks at after one step: memory, pc, run, outlog, inputs left. -/
def after (image inputs : List Int) : Option (List Int × Int × RunState × List Int × List Int) :=
  match step (start image inputs) with
  | .next t => some (t.finalMemory, t.pc, t.run, t.outlog, t.inChan)
  | _ => none

/-- The cause the first step faults with, and the pc then. -/
def causeOf (image inputs : List Int) : Option (Option Cause × Int) :=
  match step (start image inputs) with
  | .next t => some (t.err, t.pc)
  | _ => none

/-- Why a state has no step. -/
def stopOf (s : State) : Option Fault :=
  match step s with
  | .fault f => some f
  | _ => none

/-! ## Well-formedness -/

/-- R21 with W = 64: INT_MAX + 1 is no cell value, INT_MAX and INT_MIN are, in each of the forms. -/
theorem test_wellFormed_range :
    (Instr.add (.imm 9223372036854775807) (.pos 0) (.pos 0)).wellFormed (.bits 64) = true ∧
    (Instr.add (.imm 9223372036854775808) (.pos 0) (.pos 0)).wellFormed (.bits 64) = false ∧
    (Instr.multiply (.pos 0) (.imm (-9223372036854775809)) (.pos 0)).wellFormed (.bits 64) = false ∧
    (Instr.lessThan (.pos 0) (.pos 0) (.imm 9223372036854775808)).wellFormed (.bits 64) = false ∧
    (Instr.equal (.pos (-9223372036854775808)) (.pos 0) (.pos 0)).wellFormed (.bits 64) = true ∧
    (Instr.equal (.pos (-9223372036854775809)) (.pos 0) (.pos 0)).wellFormed (.bits 64) = false ∧
    (Instr.input 9223372036854775808).wellFormed (.bits 64) = false ∧
    (Instr.output (-9223372036854775809)).wellFormed (.bits 64) = false ∧
    (Instr.jumpIfTrue (.imm 9223372036854775808) (.imm 0)).wellFormed (.bits 64) = false ∧
    (Instr.jumpIfFalse (.imm 0) (.pos 9223372036854775808)).wellFormed (.bits 64) = false ∧
    (Instr.jumpIfFalse (.imm 0) (.pos 9223372036854775808)).wellFormed .unbounded = true ∧
    Instr.halt.wellFormed (.bits 64) = true := by decide

/-! ## Decoding: words written out from R61 and R72, and the cells after them -/

theorem test_decode_add : decode [1001, 100, -1, 4] = .ok (.add (.pos 100) (.imm (-1)) (.pos 4)) := by decide
theorem test_decode_multiply : decode [1002, 4, 3, 4] = .ok (.multiply (.pos 4) (.imm 3) (.pos 4)) := by decide
theorem test_decode_input : decode [11103, 7] = .ok (.input 7) := by decide
theorem test_decode_output : decode [104, 999, 99] = .ok (.output 999) := by decide
theorem test_decode_jumpIfTrue : decode [10105, 1, 9] = .ok (.jumpIfTrue (.imm 1) (.pos 9)) := by decide
theorem test_decode_jumpIfFalse : decode [1006, 5, 0, 0] = .ok (.jumpIfFalse (.pos 5) (.imm 0)) := by decide
theorem test_decode_lessThan : decode [10107, 1, 2, 0] = .ok (.lessThan (.imm 1) (.pos 2) (.imm 0)) := by decide
theorem test_decode_equal : decode [11108, 1, 1, 0] = .ok (.equal (.imm 1) (.imm 1) (.imm 0)) := by decide
theorem test_decode_halt : decode [1199] = .ok .halt := by decide
/-- Priority F1 of the test vectors, and the edges of R63. -/
theorem test_decode_faults :
    decode [2077] = .error (.invalidAddressingMode 2) ∧ decode [100000] = .error .malformedWord ∧
    decode [99999] = .error (.invalidAddressingMode 9) ∧ decode [-5] = .error .malformedWord ∧
    decode [0] = .error (.unknownOpcode 0) ∧ decode [2] = .error .truncatedInstruction ∧
    decode [299] = .error (.invalidAddressingMode 2) := by decide
/-- R77: the canonical words. -/
theorem test_encode :
    encode (.add (.pos 13) (.imm (-1)) (.pos 13)) = [1001, 13, -1, 13] ∧ encode (.output 13) = [4, 13] ∧
    encode (.jumpIfTrue (.pos 13) (.imm 2)) = [1005, 13, 2] ∧ encode (.equal (.pos 2) (.imm 19) (.pos 21)) = [1008, 2, 19, 21] ∧
    encode .halt = [99] := by decide

/-! ## One step of each instruction, from the test vectors -/

/-- S3. -/
theorem test_add_own_word : after [1, 0, 0, 0, 99] [] = some ([2, 0, 0, 0, 99], 4, .running, [], []) := by decide
/-- R114: INT_MAX + 1. -/
theorem test_add_overflow :
    causeOf [1101, 9223372036854775807, 1, 0, 99] [] = some (some .arithmeticOverflow, 0) := by decide
/-- M2. -/
theorem test_multiply_negative : after [1102, -3, 4, 0, 99] [] = some ([-12, -3, 4, 0, 99], 4, .running, [], []) := by decide
/-- M9: -2^32 * 2^31 fits. -/
theorem test_multiply_least :
    after [1102, -4294967296, 2147483648, 0, 99] [] =
      some ([-9223372036854775808, -4294967296, 2147483648, 0, 99], 4, .running, [], []) := by decide
/-- I7, first cycle. -/
theorem test_input_takes_first : after [3, 0, 3, 1, 99] [10, 20] = some ([10, 0, 3, 1, 99], 2, .running, [], [20]) := by decide
/-- I4: the value is taken, then the address faults. -/
theorem test_input_bad_address : after [3, 5, 99] [7] = some ([3, 5, 99], 0, .faulted, [], []) := by decide
/-- O1: the operand is an address. -/
theorem test_output_address : after [104, 0, 99] [] = some ([104, 0, 99], 2, .running, [104], []) := by decide
/-- O4. -/
theorem test_output_bad_address : after [104, 999, 99] [] = some ([104, 999, 99], 0, .faulted, [], []) := by decide
/-- J4: indirect through cell 6. -/
theorem test_jumpIfTrue_indirect : after [5, 5, 6, 0, 99, 1, 4] [] = some ([5, 5, 6, 0, 99, 1, 4], 4, .running, [], []) := by decide
/-- J12: the target of a jump not taken is not read. -/
theorem test_jumpIfTrue_untaken : after [105, 0, 9, 99] [] = some ([105, 0, 9, 99], 3, .running, [], []) := by decide
/-- JF4. -/
theorem test_jumpIfFalse_taken : after [6, 5, 6, 0, 99, 0, 4] [] = some ([6, 5, 6, 0, 99, 0, 4], 4, .running, [], []) := by decide
/-- JF3, first cycle. -/
theorem test_jumpIfFalse_untaken : after [1006, 5, 0, 0, 99, 7] [] = some ([1006, 5, 0, 0, 99, 7], 3, .running, [], []) := by decide
/-- L1. -/
theorem test_lessThan_signed : after [1107, -1, 8, 5, 99, -7] [] = some ([1107, -1, 8, 5, 99, 1], 4, .running, [], []) := by decide
/-- L2. -/
theorem test_lessThan_strict : after [1107, 8, 8, 5, 99, -7] [] = some ([1107, 8, 8, 5, 99, 0], 4, .running, [], []) := by decide
/-- E4: source and destination the same cell. -/
theorem test_equal_alias : after [8, 5, 5, 5, 99, 123] [] = some ([8, 5, 5, 5, 99, 1], 4, .running, [], []) := by decide
/-- E2. -/
theorem test_equal_sign : after [1108, -1, 1, 5, 99, -7] [] = some ([1108, -1, 1, 5, 99, 0], 4, .running, [], []) := by decide
/-- H2: ignored digits; the pc stays. -/
theorem test_halt_result :
    (match step (start [1199] []) with | .next t => some (t.result, t.pc, t.run) | _ => none) = some (some 1199, 0, .halted) := by
  decide

/-! ## Faults and waits -/

/-- F5 to F8 of the test vectors. -/
theorem test_fault_priority :
    causeOf [10002, 9, 0, 0] [] = some (some (.outOfBounds 9), 0) ∧
    causeOf [11102, 9223372036854775807, 2, 0, 99] [] = some (some .arithmeticOverflow, 0) ∧
    causeOf [11101, 1, 1, 9, 99] [] = some (some .writeToImmediate, 0) ∧
    causeOf [1, 9, 8, 0, 99] [] = some (some (.outOfBounds 9), 0) := by decide
/-- I5: no value, no step, whatever the address. -/
theorem test_input_waits : stopOf (start [3, 5, 99] []) = some .waitingForInput := by decide
/-- R100. -/
theorem test_terminal :
    stopOf { start [99] [] with run := .halted } = some .engineHalted ∧
    stopOf { start [99] [] with run := .faulted } = some .engineFaulted := by decide

/-! ## The host's reading of table words -/

theorem test_decodeTableWord :
    decodeTableWord 8 1 = some (.add (.pos 0) (.pos 0) (.pos 0)) ∧ decodeTableWord 8 99 = some .halt ∧
    decodeTableWord 8 4 = some (.output 0) ∧ decodeTableWord 16 1105 = some (.jumpIfTrue (.imm 0) (.imm 0)) ∧ decodeTableWord 8 9 = none ∧
    decodeTableWord 128 (3 + 2 ^ 64 * (2 ^ 64 - 1)) = some (.input (-1)) := by decide

/-- The first step after reset runs the word placed: Add writes 1 + 1 over its own word; Input has a value to take. -/
theorem test_withFetchWord :
    (match step (State.reset.withFetchWord 8 1) with | .next t => some (t.memRead 0, t.pc, t.run) | _ => none) =
      some (2, 4, .running) ∧
    (match step (State.reset.withFetchWord 8 3) with | .next t => some (t.memRead 0, t.pc, t.run) | _ => none) =
      some (0, 2, .running) ∧
    (match step (State.reset.withFetchWord 8 99) with | .next t => some (t.result, t.pc, t.run) | _ => none) =
      some (some 99, 0, .halted) := by decide

/-! ## Witnesses: for every obligation with hypotheses, a concrete input that meets them all; one per clause, at the ends of its
range. The theorem's name is the obligation's. -/

/-- A step with a next state, for the obligations whose hypothesis is only that. -/
def hasNext (s : State) : Bool :=
  match step s with
  | .next _ => true
  | _ => false

/-- The run state of the next state. -/
def nextRun (s : State) : Option RunState :=
  match step s with
  | .next t => some t.run
  | _ => none

/-- `exec` answers a next state. -/
def execNext (i : Instr) (s : State) : Bool :=
  match exec i s with
  | .next _ => true
  | _ => false

theorem witness_DecodedInstructionHoldsWindowCells :
    decode (11101 :: [1, 1, 0]) = .ok (.add (.imm 1) (.imm 1) (.imm 0)) ∧
    4 ≤ (Instr.add (.imm 1) (.imm 1) (.imm 0)).length ∧
    decode (10005 :: [5, 6]) = .ok (.jumpIfTrue (.pos 5) (.pos 6)) ∧ 3 ≤ (Instr.jumpIfTrue (.pos 5) (.pos 6)).length ∧
    decode (11199 :: []) = .ok .halt := by decide
theorem witness_WordFieldsRoundTrip :
    (Fields.mk 99 1 1 1).op ≤ 99 ∧ (Fields.mk 99 1 1 1).d1 ≤ 1 ∧ (Fields.mk 99 1 1 1).d2 ≤ 1 ∧ (Fields.mk 99 1 1 1).d3 ≤ 1 ∧
    decodeWord 11199 = .ok ⟨99, 1, 1, 1⟩ ∧ decodeWord 0 = .ok ⟨0, 0, 0, 0⟩ ∧ decode (11104 :: [7]) = .ok (.output 7) := by decide
theorem witness_ExactlySeventyTwoLegalWords :
    3 ≤ ([0, 0, 0] : List Int).length ∧ decode (11199 :: [0, 0, 0]) = .ok .halt ∧
    ((0 : Nat) = 0 ∨ 9 ≤ (0 : Nat) ∧ (0 : Nat) ≤ 98) ∧ ((9 : Nat) = 0 ∨ 9 ≤ (9 : Nat) ∧ (9 : Nat) ≤ 98) ∧
    ((98 : Nat) = 0 ∨ 9 ≤ (98 : Nat) ∧ (98 : Nat) ≤ 98) := by decide
/-- -1 and 100000; 20000; 12000; 11200; 11100 and 11198. -/
theorem witness_WordFaultsInDecoderOrder :
    ((-1 : Int) < 0) ∧ ((100000 : Int) ≤ 100000) ∧ (1 < (20000 : Int) / 10000 % 10) ∧
    ((12000 : Int) / 10000 % 10 ≤ 1 ∧ 1 < (12000 : Int) / 1000 % 10) ∧
    ((11200 : Int) / 10000 % 10 ≤ 1 ∧ (11200 : Int) / 1000 % 10 ≤ 1 ∧ 1 < (11200 : Int) / 100 % 10) ∧
    ((11198 : Int) / 10000 % 10 ≤ 1 ∧ (11198 : Int) / 1000 % 10 ≤ 1 ∧ (11198 : Int) / 100 % 10 ≤ 1 ∧
      (11198 : Int) % 100 ∉ ([1, 2, 3, 4, 5, 6, 7, 8, 99] : List Int)) ∧
    ((11100 : Int) / 10000 % 10 ≤ 1 ∧ (11100 : Int) / 1000 % 10 ≤ 1 ∧ (11100 : Int) / 100 % 10 ≤ 1 ∧
      (11100 : Int) % 100 ∉ ([1, 2, 3, 4, 5, 6, 7, 8, 99] : List Int)) := by decide
theorem witness_IgnoredModeDigitsAreDropped :
    ((1 : Nat) ≤ 1) ∧ (99 ∈ [3, 4, 5, 6, 99] ∧ (9 : Nat) ≤ 9 ∧ (0 : Nat) ≤ 9 ∧ 1 < (9 : Nat)) ∧
    (3 ∈ [3, 4, 5, 6, 99] ∧ (2 : Nat) ≤ 9 ∧ 1 < (2 : Nat)) := by decide
/-- An Input and a Halt in the last cell. -/
theorem witness_TruncationAtEndOfMemory :
    ((start [3] []).run = .running ∧ 0 ≤ (start [3] []).pc ∧ (start [3] []).pc < (start [3] []).memLen ∧
      decodeWord ((start [3] []).memRead (start [3] []).pc) = .ok ⟨3, 0, 0, 0⟩ ∧ 3 = Op.input.code ∧
      ((start [3] []).memLen : Int) < (start [3] []).pc + Op.input.length) ∧
    (decodeWord ((start [99] []).memRead (start [99] []).pc) = .ok ⟨99, 0, 0, 0⟩ ∧ 99 = Op.halt.code ∧
      (start [99] []).pc + Op.halt.length ≤ ((start [99] []).memLen : Int)) := by decide
/-- The last cell, and the first. -/
theorem witness_WindowHoldsCellsFromPc :
    (0 ≤ ((start [1, 2, 3] []).jumpTo 2).pc ∧ ((start [1, 2, 3] []).jumpTo 2).pc < ((start [1, 2, 3] []).jumpTo 2).memLen) ∧
    (0 ≤ (start [1, 2, 3, 4, 5] []).pc ∧ (start [1, 2, 3, 4, 5] []).pc < (start [1, 2, 3, 4, 5] []).memLen) := by decide
/-- J7 and J8: pc -1 and pc N. -/
theorem witness_PcOutsideMemoryFaultsAtFetch :
    (((start [99] []).jumpTo (-1)).run = .running ∧ ((start [99] []).jumpTo (-1)).pc < 0) ∧
    (((start [99] []).jumpTo 1).run = .running ∧ (((start [99] []).jumpTo 1).memLen : Int) ≤ ((start [99] []).jumpTo 1).pc) ∧
    nextRun ((start [99] []).jumpTo 1) = some .faulted ∧
    (match step ((start [99] []).jumpTo 1) with | .next t => t.err | _ => none) = some .programCounterOutOfBounds := by decide
theorem witness_StepRunsTheDecodedInstruction :
    ((start [99] []).run = .running ∧ 0 ≤ (start [99] []).pc ∧ (start [99] []).pc < (start [99] []).memLen ∧
      decode (start [99] []).window = .ok .halt) ∧
    ((start [9] []).run = .running ∧ decode (start [9] []).window = .error (.unknownOpcode 9)) := by decide
theorem witness_EncodedInstructionAtPcIsExecuted :
    (start [0, 99] []).run = .running ∧ 0 ≤ ((start [0, 99] []).jumpTo 1).pc ∧
    ((start [0, 99] []).jumpTo 1).pc + Instr.halt.length ≤ (((start [0, 99] []).jumpTo 1).memLen : Int) ∧
    (∀ k : Nat, k < Instr.halt.length →
      (encode .halt)[k]? = some (((start [0, 99] []).jumpTo 1).memRead (((start [0, 99] []).jumpTo 1).pc + k))) := by decide
theorem witness_TerminalStatesTakeNoStep :
    (start [99] []).halt.run = .halted ∧ ((start [9] []).raise (.unknownOpcode 9)).run = .faulted ∧
    hasNext (start [99] []) = true := by decide
theorem witness_TerminalStopsAreNamed :
    (start [99] []).halt.run = .halted ∧ ((start [9] []).raise (.unknownOpcode 9)).run = .faulted := by decide
theorem witness_StepReportsFirstFaultInPriorityOrder :
    (start [2077] []).run = .running ∧ stopOf (start [2077] []) = none ∧
    firstFault (start [2077] []) = some (.invalidAddressingMode 2) ∧ firstFault (start [99] []) = none := by decide
/-- One state per row of R102, without a fault. -/
theorem witness_StepFollowsSummaryTable :
    ∀ image ∈ ([[1, 0, 0, 0, 99], [1102, -3, 4, 0, 99], [3, 0, 99], [104, 0, 99], [1105, 1, 4, 0, 99], [1105, 0, 4, 99, 0],
        [1106, 0, 4, 0, 99], [1106, 1, 4, 99, 0], [7, 5, 6, 5, 99, 3, 4], [8, 5, 5, 5, 99, 123], [99]] : List (List Int)),
      (start image [42]).run = .running ∧ firstFault (start image [42]) = none ∧ hasNext (start image [42]) = true := by decide

theorem witness_FaultEntryWritesRunAndErr :
    Cause.truncatedInstruction ∈
      [Cause.malformedWord, .truncatedInstruction, .writeToImmediate, .programCounterOutOfBounds, .arithmeticOverflow] := by decide
theorem witness_CodesOfCausesAndRunStates :
    (start [99] []).run = .running ∧ (start [99] []).halt.run = .halted ∧
    ((start [9] []).raise (.unknownOpcode 9)).run = .faulted := by decide
theorem witness_ResetLeavesTheImageAndPcZero : 0 < ([7, 0, 8] : List Int).length ∧ 2 < ([7, 0, 8] : List Int).length := by decide

/-- The state after loading an image meets the invariant: here S3's. -/
theorem start_inv : Inv (start [1, 0, 0, 0, 99] []) :=
  ⟨by decide, by decide, by decide, by decide, by decide⟩
theorem halted_inv : Inv (start [99] []).halt := ⟨by decide, by decide, by decide, by decide, by decide⟩
theorem faulted_inv : Inv ((start [9] []).raise (.unknownOpcode 9)) := ⟨by decide, by decide, by decide, by decide, by decide⟩
theorem witness_StepKeepsInvariant : Inv (start [1, 0, 0, 0, 99] []) ∧ hasNext (start [1, 0, 0, 0, 99] []) = true :=
  ⟨start_inv, by decide⟩
theorem witness_FetchedInstructionIsWellFormed :
    Inv (start [1, 0, 0, 0, 99] []) ∧ (start [1, 0, 0, 0, 99] []).fetch = .ok (.add (.pos 0) (.pos 0) (.pos 0)) :=
  ⟨start_inv, by decide⟩
theorem witness_ReportTellsHowTheRunEnded :
    Inv (start [1, 0, 0, 0, 99] []) ∧ (Inv (start [99] []).halt ∧ (start [99] []).halt.run = .halted) ∧
    (Inv ((start [9] []).raise (.unknownOpcode 9)) ∧ ((start [9] []).raise (.unknownOpcode 9)).run = .faulted) :=
  ⟨start_inv, ⟨halted_inv, by decide⟩, ⟨faulted_inv, by decide⟩⟩
/-- W = 18, the least: an image of legal cells; an empty image makes none. -/
theorem witness_LoaderAcceptsExactlyLegalImages :
    State.load (.bits 18) [131071, -131072] [5] = some (State.boot (.bits 18) [131071, -131072] [5]) ∧
    State.load (.bits 18) [131072] [] = none ∧ State.load (.bits 17) [99] [] = none ∧ State.load (.bits 64) [] [] = none ∧
    State.load .unbounded [10 ^ 30] [] = some (State.boot .unbounded [10 ^ 30] []) := by decide
/-- The widths of the iff: 18, 64 and unbounded are legal, 17 is not. -/
theorem test_legal_widths :
    (CellWidth.bits 18).legal = true ∧ (CellWidth.bits 17).legal = false ∧ CellWidth.unbounded.legal = true := by decide
/-- R27, D24: a queued or supplied value at the ends of the cell range is taken, one past them is not. -/
theorem witness_HostActsKeepInvariant :
    Inv (start [1, 0, 0, 0, 99] []) ∧
    (start [1, 0, 0, 0, 99] []).supplyInput 9223372036854775807 = some (start [1, 0, 0, 0, 99] [9223372036854775807]) ∧
    (start [1, 0, 0, 0, 99] []).supplyInput 9223372036854775808 = none ∧
    (start [1, 0, 0, 0, 99] []).resetWithoutReload [-9223372036854775808] =
      some (start [1, 0, 0, 0, 99] [-9223372036854775808]) ∧
    (start [1, 0, 0, 0, 99] []).resetWithoutReload [7, -9223372036854775809] = none :=
  ⟨start_inv, by decide, by decide, by decide, by decide⟩
theorem witness_ParametersNeverChange : hasNext (start [1, 0, 0, 0, 99] []) = true := by decide
/-- I4 and O4: a faulting Input and another faulting instruction. -/
theorem witness_FaultingCycleIsPrecise :
    nextRun (start [3, 5, 99] [7]) = some .faulted ∧ nextRun (start [104, 999, 99] []) = some .faulted := by decide
theorem witness_OnlyHaltSetsHalted :
    nextRun (start [11199] []) = some .halted ∧ nextRun (start [1, 0, 0, 0, 99] []) = some .running := by decide
theorem witness_OnlyInputWaits :
    (start [3, 5, 99] []).run = .running ∧ stopOf (start [3, 5, 99] []) = some .waitingForInput ∧
    (start [3, 5, 99] []).inChan = [] ∧ (start [3, 5, 99] []).fetch = .ok (.input 5) := by decide
/-- Destinations 0 and N - 1. -/
theorem witness_SuppliedInputEndsTheWait :
    (stopOf (start [3, 0, 99] []) = some .waitingForInput ∧ (start [3, 0, 99] []).fetch = .ok (.input 0) ∧
      (0 : Int) < (start [3, 0, 99] []).memLen ∧ (start [3, 0, 99] []).supplyInput 42 = some (start [3, 0, 99] [42])) ∧
    (stopOf (start [3, 2, 0] []) = some .waitingForInput ∧ (start [3, 2, 0] []).fetch = .ok (.input 2) ∧
      (2 : Int) < (start [3, 2, 0] []).memLen ∧ (start [3, 2, 0] []).supplyInput 99 = some (start [3, 2, 0] [99])) := by decide
theorem witness_StatusWrittenOnlyAtTheEnd :
    nextRun (start [1, 0, 0, 0, 99] []) = some .running ∧ nextRun (start [99] []) = some .halted ∧
    nextRun (start [299] []) = some .faulted := by decide
theorem witness_StepMakesAtMostOnePortOperation :
    hasNext (start [104, 0, 99] []) = true ∧ hasNext (start [3, 0, 99] [42]) = true ∧ hasNext (start [99] []) = true := by decide
/-- S3 and I2: a cell that a step changes, the first and the last. -/
theorem witness_StepWritesOnlyTheStoreAddress :
    (match step (start [1, 0, 0, 0, 99] []) with | .next t => some (t.memRead 0) | _ => none) = some 2 ∧
    (start [1, 0, 0, 0, 99] []).memRead 0 = 1 ∧
    (match step (start [3, 2, 0] [99]) with | .next t => some (t.memRead 2) | _ => none) = some 99 ∧
    (start [3, 2, 0] [99]).memRead 2 = 0 := by decide
theorem witness_StatusRegistersUnseenByPrograms :
    SameProgramView (start [99] []) { start [99] [] with err := some .malformedWord, result := some 7, outlog := [1] } ∧
    hasNext (start [99] []) = true ∧ SameProgramView (start [3, 0] []) { start [3, 0] [] with outChan := [1] } ∧
    stopOf (start [3, 0] []) = some .waitingForInput ∧ nextRun (start [9] []) = some .faulted := by decide
/-- An Output, whatever is queued. -/
theorem witness_InputChannelSeenByInputAlone :
    (∀ dest : Int, (start [104, 0, 99] []).fetch ≠ .ok (.input dest)) ∧ hasNext (start [104, 0, 99] []) = true := by
  refine ⟨fun dest => ?_, by decide⟩
  rw [show (start [104, 0, 99] []).fetch = .ok (.output 0) from by decide]
  exact fun h => by cases h
/-- What a storing step needs: the fetched instruction, the value it stores, an address inside memory. -/
def storing (image inputs : List Int) (i : Instr) (d : Int) : Prop :=
  (start image inputs).run = .running ∧ (start image inputs).fetch = .ok i ∧ 0 ≤ d ∧ d < (start image inputs).memLen

/-- S3: the Add's own word. -/
theorem witness_StoreIntoCodeSeenByNextFetch :
    storing [1, 0, 0, 0, 99] [] (.add (.pos 0) (.pos 0) (.pos 0)) 0 ∧
    Stores (start [1, 0, 0, 0, 99] []) 0 2 (.add (.pos 0) (.pos 0) (.pos 0)) :=
  ⟨⟨by decide, by decide, by decide, by decide⟩, by decide, ⟨1, 1, ⟨by decide, by decide⟩, by decide⟩, by decide⟩
/-- Multiply onto its last operand cell, that is its own cell 3. -/
theorem witness_StoreIntoCode_multiply :
    storing [1102, 3, 4, 3] [] (.multiply (.imm 3) (.imm 4) (.pos 3)) 3 ∧
    Stores (start [1102, 3, 4, 3] []) 3 12 (.multiply (.imm 3) (.imm 4) (.pos 3)) :=
  ⟨⟨by decide, by decide, by decide, by decide⟩, by decide, ⟨3, 4, ⟨by decide, by decide⟩, by decide⟩, by decide⟩
/-- I2: Input onto the word of the next instruction. -/
theorem witness_StoreIntoCode_input :
    storing [3, 2, 0] [99] (.input 2) 2 ∧ Stores (start [3, 2, 0] [99]) 2 99 (.input 2) :=
  ⟨⟨by decide, by decide, by decide, by decide⟩, by decide, [], by decide⟩
/-- LessThan onto the next instruction's word. -/
theorem witness_StoreIntoCode_lessThan :
    storing [1107, -1, 8, 4, 99] [] (.lessThan (.imm (-1)) (.imm 8) (.pos 4)) 4 ∧
    Stores (start [1107, -1, 8, 4, 99] []) 4 1 (.lessThan (.imm (-1)) (.imm 8) (.pos 4)) :=
  ⟨⟨by decide, by decide, by decide, by decide⟩, by decide, -1, 8, ⟨by decide, by decide⟩, by decide⟩
/-- Equal onto its own word, with 0. -/
theorem witness_StoreIntoCode_equal :
    storing [1108, -1, 1, 0, 99] [] (.equal (.imm (-1)) (.imm 1) (.pos 0)) 0 ∧
    Stores (start [1108, -1, 1, 0, 99] []) 0 0 (.equal (.imm (-1)) (.imm 1) (.pos 0)) :=
  ⟨⟨by decide, by decide, by decide, by decide⟩, by decide, -1, 1, ⟨by decide, by decide⟩, by decide⟩
/-- The windows the conclusion speaks of: its own cells and the next instruction's, from 0 and from N - 1. -/
theorem witness_StoreIntoCode_windows :
    2 < ((start [3, 2, 0] [99]).jumpTo 0).window.length ∧ 0 < ((start [3, 2, 0] [99]).jumpTo 2).window.length := by decide
/-- J7 and JF7: targets -1 and N. -/
theorem witness_BadJumpTargetFaultsAtNextFetch :
    ((start [1105, 1, -1, 99] []).fetch = .ok (.jumpIfTrue (.imm 1) (.imm (-1))) ∧ (1 : Int) ≠ 0 ∧ (-1 : Int) < 0) ∧
    ((start [1106, 0, 5, 99, 0] []).fetch = .ok (.jumpIfFalse (.imm 0) (.imm 5)) ∧
      ((start [1106, 0, 5, 99, 0] []).memLen : Int) ≤ 5) := by decide

/-! ### Operands, memory, ALU: addresses -1, 0, N - 1 and N -/

theorem witness_ReadOperand_WriteOperand :
    (-1 : Int) < 0 ∧ ((start [7, 8] []).memLen : Int) ≤ 2 ∧ (0 : Int) < (start [7, 8] []).memLen ∧
    (1 : Int) < (start [7, 8] []).memLen ∧ readOperand (start [7, 8] []) (.pos 1) = .ok 8 ∧
    readOperand (start [7, 8] []) (.pos 2) = .error (.outOfBounds 2) ∧
    readOperand (start [7, 8] []) (.pos (-1)) = .error (.outOfBounds (-1)) := by decide
theorem witness_CellReadAfterWrite :
    (0 : Int) ≤ 0 ∧ (1 : Int) ≠ 0 ∧ Memory.wf (start [7, 0, 8] []).mem ∧ Memory.wf ((start [7, 0, 8] []).memWrite 0 0).mem := by
  decide
theorem witness_EqualReadingMemoriesAreEqual :
    Memory.wf [(0, 7), (2, 8)] ∧ Memory.wf (Memory.ofImage [7, 0, 8]) ∧
    ∀ a, Memory.get [(0, 7), (2, 8)] a = Memory.get (Memory.ofImage [7, 0, 8]) a :=
  ⟨by decide, by decide, fun _ => rfl⟩
/-- W = 18: INT_MAX, INT_MAX + 1, INT_MIN, INT_MIN - 1, as sums and as products. -/
theorem witness_OverflowExactlyOutsideTheCellRange :
    (131070 + 1 : Int) ≤ 2 ^ (18 - 1) - 1 ∧ 2 ^ (18 - 1) - 1 < (131071 + 1 : Int) ∧ -(2 ^ (18 - 1)) ≤ (-131071 + -1 : Int) ∧
    (-131072 + -1 : Int) < -(2 ^ (18 - 1)) ∧ -(2 ^ (18 - 1)) ≤ (-65536 * 2 : Int) ∧ 2 ^ (18 - 1) - 1 < (65536 * 2 : Int) ∧
    (131071 * 1 : Int) ≤ 2 ^ (18 - 1) - 1 ∧ (131073 * -1 : Int) < -(2 ^ (18 - 1)) := by decide
/-- W = 18 and W = 64, with v at INT_MIN and INT_MAX. -/
theorem witness_AluCorners :
    (18 ≤ 18 ∧ (131071 : Int) = 2 ^ (18 - 1) - 1 ∧ (-131072 : Int) = -131071 - 1 ∧ (CellWidth.bits 18).fits (-131072) = true ∧
      (131071 : Int) ≠ -131072 ∧ (CellWidth.bits 18).fits 131071 = true ∧ 18 % 2 = 0) ∧
    (18 ≤ 64 ∧ (9223372036854775807 : Int) = 2 ^ (64 - 1) - 1 ∧
      (CellWidth.bits 64).fits (-9223372036854775808) = true) := by decide

/-! ### Completion, faults, frames: two cells, addresses 0 and 1 -/

theorem witness_AddCompletes :
    readOperand (start [7, 8] []) (.pos 0) = .ok 7 ∧ readOperand (start [7, 8] []) (.imm (-9)) = .ok (-9) ∧
    (start [7, 8] []).width.fits (7 + -9) = true ∧ (0 : Int) ≤ 1 ∧ (1 : Int) < (start [7, 8] []).memLen := by decide
theorem witness_MultiplyCompletes :
    readOperand (start [7, 8] []) (.pos 0) = .ok 7 ∧ readOperand (start [7, 8] []) (.pos 1) = .ok 8 ∧
    (start [7, 8] []).width.fits (7 * 8) = true ∧ (0 : Int) ≤ 0 ∧ (0 : Int) < (start [7, 8] []).memLen := by decide
theorem witness_InputCompletes : (start [7, 8] [5, 6]).inChan = 5 :: [6] ∧ (0 : Int) ≤ 1 ∧ (1 : Int) < (start [7, 8] [5, 6]).memLen := by
  decide
theorem witness_OutputCompletes : (0 : Int) ≤ 1 ∧ (1 : Int) < (start [7, 8] []).memLen := by decide
/-- Taken on -3, with a target read; not taken on 0, with a target that cannot be read. -/
theorem witness_JumpIfTrueCompletes :
    readOperand (start [7, 8] []) (.imm (-3)) = .ok (-3) ∧ (-3 : Int) ≠ 0 ∧ readOperand (start [7, 8] []) (.pos 1) = .ok 8 ∧
    readOperand (start [0, 8] []) (.pos 0) = .ok 0 := by decide
theorem witness_JumpIfFalseCompletes :
    readOperand (start [0, 8] []) (.pos 0) = .ok 0 ∧ readOperand (start [0, 8] []) (.pos 1) = .ok 8 ∧
    readOperand (start [7, 8] []) (.pos 0) = .ok 7 ∧ (7 : Int) ≠ 0 := by decide
theorem witness_LessThanCompletes :
    readOperand (start [7, 8] []) (.pos 0) = .ok 7 ∧ readOperand (start [7, 8] []) (.pos 1) = .ok 8 ∧ (7 : Int) < 8 ∧
    (7 : Int) ≤ 7 ∧ (0 : Int) ≤ 1 ∧ (1 : Int) < (start [7, 8] []).memLen := by decide
theorem witness_EqualCompletes :
    readOperand (start [7, 8] []) (.pos 0) = .ok 7 ∧ readOperand (start [7, 8] []) (.imm 7) = .ok 7 ∧
    readOperand (start [7, 8] []) (.pos 1) = .ok 8 ∧ (7 : Int) ≠ 8 ∧ (1 : Int) < (start [7, 8] []).memLen := by decide
/-- Each clause in turn: bad operand 1, bad operand 2, overflow of each kind, Immediate and bad destinations. -/
theorem witness_ThreeOperandFaultsInOrder :
    (Instr.add (.pos 2) (.pos (-1)) (.imm 0) ∈
      [Instr.add (.pos 2) (.pos (-1)) (.imm 0), .multiply (.pos 2) (.pos (-1)) (.imm 0), .lessThan (.pos 2) (.pos (-1)) (.imm 0),
        .equal (.pos 2) (.pos (-1)) (.imm 0)]) ∧
    ((start [7, 8] []).memLen : Int) ≤ 2 ∧ (-1 : Int) < 0 ∧ readOperand (start [7, 8] []) (.pos 1) = .ok 8 ∧
    readOperand (start [7, 8] []) (.imm 9223372036854775807) = .ok 9223372036854775807 ∧
    (start [7, 8] []).width.fits (8 + 9223372036854775807) = false ∧
    (start [7, 8] []).width.fits (8 * 9223372036854775807) = false ∧ (start [7, 8] []).width.fits (8 + 8) = true ∧
    (start [7, 8] []).width.fits (8 * 8) = true := by decide
theorem witness_PortInstructionsFaultOnBadAddress :
    (start [7, 8] []).inChan = [] ∧ (-1 : Int) < 0 ∧ ((start [7, 8] [5]).memLen : Int) ≤ 2 ∧
    (start [7, 8] [5]).inChan = 5 :: [] := by decide
theorem witness_JumpsFaultOnBadAddress :
    ((start [7, 0] []).memLen : Int) ≤ 2 ∧ (-1 : Int) < 0 ∧ readOperand (start [7, 0] []) (.pos 0) = .ok 7 ∧ (7 : Int) ≠ 0 ∧
    readOperand (start [7, 0] []) (.pos 1) = .ok 0 := by decide
/-- One next state with an effect and one by a fault, for each of the four. -/
theorem witness_ComputeInstructionsFrame :
    ∀ i ∈ ([.add (.pos 0) (.imm 1) (.pos 1), .multiply (.pos 0) (.imm 1) (.pos 1), .lessThan (.pos 0) (.imm 1) (.pos 1),
        .equal (.pos 0) (.imm 1) (.pos 1), .add (.pos 2) (.imm 1) (.imm 1)] : List Instr),
      execNext i (start [7, 8] []) = true := by decide
theorem witness_PortInstructionsFrame :
    execNext (.input 1) (start [7, 8] [5]) = true ∧ execNext (.input 2) (start [7, 8] [5]) = true ∧
    execNext (.output 0) (start [7, 8] []) = true ∧ execNext (.output (-1)) (start [7, 8] []) = true := by decide
theorem witness_JumpAndHaltFrame :
    execNext (.jumpIfTrue (.imm 1) (.imm (-1))) (start [7, 8] []) = true ∧
    execNext (.jumpIfFalse (.pos 2) (.imm 0)) (start [7, 8] []) = true ∧ execNext .halt (start [7, 8] []) = true := by decide

end Sys2Proof.Tests
end

section
/-! PROOFS. The family of `30_encoding.md`: the fetch as RESOLVE of the word at the pc, and where it is truncated. -/

namespace Sys2Proof

theorem Op.length_le_four (op : Op) : op.length ≤ 4 := by cases op <;> decide

/-- Once the opcode is defined (R66), RESOLVE depends on the window's length alone (R67). -/
theorem resolve_of_code {f : Fields} {op : Op} (h : f.op = op.code) (window : List Int) :
    resolve f window =
      if window.length < op.length then .error .truncatedInstruction
      else .ok (op.assemble f (window.getD 1 0) (window.getD 2 0) (window.getD 3 0)) := by
  simp only [resolve, h, lookupOp_code]

end Sys2Proof

namespace Sys2Proof.Machine

/-- The window is clamped at the end of memory (R91), so it is too short for an operation exactly when the operation's cells
pass that end (R67). -/
theorem State.window_length_lt_iff {s : State} (hpc : s.inBounds s.pc = true) (op : Op) :
    s.window.length < op.length ↔ (s.memLen : Int) < s.pc + op.length := by
  have hrange := (s.inBounds_iff _).mp hpc
  have hlen := op.length_le_four
  rw [State.window_length]
  omega

/-- Where the word at the pc passes DECODE, a fetch is RESOLVE of its fields. -/
theorem State.fetch_eq_resolve {s : State} {f : Fields} (hpc : s.inBounds s.pc = true)
    (hword : decodeWord (s.memRead s.pc) = .ok f) : s.fetch = resolve f s.window := by
  obtain ⟨rest, hwindow⟩ := State.window_eq_cons hpc
  simp only [State.fetch, hpc, if_true, hwindow, decode, hword]

/-- A running engine whose fetch raises takes the fault entry (R90). -/
theorem step_of_fetch_error {s : State} {c : Cause} (hrun : s.run = .running) (h : s.fetch = .error c) :
    step s = .next (s.raise c) := by
  simp only [step, cycle, hrun, h]

/-- Settles O8: the fetch is RESOLVE of the fields, which compares the clamped window's length with the opcode's. -/
theorem truncationAtEndOfMemory : Obligations.TruncationAtEndOfMemory := by
  intro s f op hrun h0 hN hword hop
  have hpc : s.inBounds s.pc = true := State.inBounds_of_range h0 hN
  have hfetch := (State.fetch_eq_resolve hpc hword).trans (resolve_of_code hop s.window)
  refine ⟨fun hpast => ?_, fun hinside => ?_, ?_⟩
  · rw [if_pos ((State.window_length_lt_iff hpc op).mpr hpast)] at hfetch
    exact step_of_fetch_error hrun hfetch
  · rw [if_neg ((State.window_length_lt_iff hpc op).not.mpr (by omega))] at hfetch
    exact ⟨_, hfetch, Op.assemble_op op f _ _ _⟩
  · cases op <;> rfl

end Sys2Proof.Machine

end

section
/-! PROOFS. The family of `40_cycle_and_operands.md`: the terminal states have no cycle, and what `ReadOperand` yields. -/

namespace Sys2Proof.Machine

/-- A next state is answered in Running alone (R100). -/
theorem running_of_step_eq_next {s t : State} (h : step s = .next t) : s.run = .running := (step_next_cases h).left

/-- Settles O14: a next state would put the engine in Running, which neither terminal state is. -/
theorem terminalStatesTakeNoStep : Obligations.TerminalStatesTakeNoStep := by
  intro s
  refine ⟨fun hterminal t hnext => ?_, fun t => running_of_step_eq_next⟩
  have hrun := running_of_step_eq_next hnext
  rcases hterminal with hhalted | hfaulted
  · simp [hhalted] at hrun
  · simp [hfaulted] at hrun

/-- Settles O37: the three ranges are the cases of the resolver's success and of its one fault. -/
theorem readOperandGivesLiteralOrCell : Obligations.ReadOperandGivesLiteralOrCell := by
  intro s
  refine ⟨fun v => ?literal, fun a hout => ?outside, fun a h0 hN => ?inside⟩
  case literal => exact (readOperand_eq_ok_iff s _ v).mpr (.inl rfl)
  case outside =>
    exact (readOperand_eq_error_iff s _ _).mpr ⟨a, rfl, State.inBounds_eq_false_of_range hout, rfl⟩
  case inside =>
    exact (readOperand_eq_ok_iff s _ _).mpr (.inr ⟨a, rfl, State.inBounds_of_range h0 hN, rfl⟩)

end Sys2Proof.Machine

end

section
/-! PROOFS. The family of `60_exceptions.md`: which stage raises ProgramCounterOutOfBounds (FETCH, and neither DECODE, RESOLVE nor
EXECUTE), and what a fault entry leaves. -/

namespace Sys2Proof

/-- DECODE judges the word alone (R63, R64), so it never blames the pc. -/
theorem decodeWord_ne_programCounterOutOfBounds (word : Int) : decodeWord word ≠ .error .programCounterOutOfBounds := by
  intro h
  unfold decodeWord at h
  split at h
  next c hsplit =>
    cases h
    unfold splitWord at hsplit
    split_ifs at hsplit <;> cases hsplit
  next f _ =>
    unfold checkModes at h
    split_ifs at h <;> cases h

/-- RESOLVE raises UnknownOpcode or TruncatedInstruction (R66, R67). -/
theorem resolve_ne_programCounterOutOfBounds (f : Fields) (window : List Int) :
    resolve f window ≠ .error .programCounterOutOfBounds := by
  unfold resolve
  split
  · simp
  · split_ifs <;> simp

end Sys2Proof

namespace Sys2Proof.Machine

/-! ## FETCH, DECODE and RESOLVE -/

/-- Of the phases before EXECUTE, the pc check alone raises this cause (R167): a window the check lets through is not empty, and
its word and cells raise others. -/
theorem State.fetch_eq_programCounterOutOfBounds_iff (s : State) :
    s.fetch = .error .programCounterOutOfBounds ↔ s.inBounds s.pc = false := by
  cases hpc : s.inBounds s.pc with
  | false => simp [State.fetch, hpc]
  | true =>
    simp only [Bool.true_eq_false, iff_false]
    intro hfetch
    cases hword : decodeWord (s.memRead s.pc) with
    | ok f =>
      rw [State.fetch_eq_resolve hpc hword] at hfetch
      exact resolve_ne_programCounterOutOfBounds f s.window hfetch
    | error c =>
      obtain ⟨rest, hwindow⟩ := State.window_eq_cons hpc
      simp only [State.fetch, hpc, if_true, hwindow, decode, hword] at hfetch
      obtain rfl := Except.error.inj hfetch
      exact decodeWord_ne_programCounterOutOfBounds _ hword

/-! ## EXECUTE -/

theorem readOperand_ne_programCounterOutOfBounds (s : State) (o : Operand) :
    readOperand s o ≠ .error .programCounterOutOfBounds := by
  simp [readOperand_eq_error_iff]

theorem writeOperand_ne_programCounterOutOfBounds (s : State) (o : Operand) (v : Int) :
    writeOperand s o v ≠ .error .programCounterOutOfBounds := by
  simp [writeOperand_eq_error_iff]

theorem narrow_ne_programCounterOutOfBounds (width : CellWidth) (r : Int) :
    narrow width r ≠ .error .programCounterOutOfBounds := by
  simp [narrow_eq_error_iff]

/-- The cycle of format T raises what its operand accesses and its ALU raise. -/
theorem threeOperand_ne_programCounterOutOfBounds {alu : Int → Int → Except Cause Int}
    (halu : ∀ x y, alu x y ≠ .error .programCounterOutOfBounds) (a b dest : Operand) (s : State) :
    threeOperand alu a b dest s ≠ .error .programCounterOutOfBounds := by
  intro h
  obtain ha | ⟨x, -, hb | ⟨y, -, hr | ⟨r, -, hw⟩⟩⟩ := (threeOperand_eq_error_iff alu a b dest s _).mp h
  · exact readOperand_ne_programCounterOutOfBounds s a ha
  · exact readOperand_ne_programCounterOutOfBounds s b hb
  · exact halu x y hr
  · exact writeOperand_ne_programCounterOutOfBounds s dest r hw

/-- A jump raises what its operand reads raise: its target is not checked (R95). -/
theorem conditionalJump_ne_programCounterOutOfBounds (taken : Int → Bool) (cond target : Operand) (s : State) :
    conditionalJump taken cond target s ≠ .error .programCounterOutOfBounds := by
  intro h
  obtain hc | ⟨c, -, -, ht⟩ := (conditionalJump_eq_error_iff taken cond target s _).mp h
  · exact readOperand_ne_programCounterOutOfBounds s cond hc
  · exact readOperand_ne_programCounterOutOfBounds s target ht

theorem threeOperand_run {alu : Int → Int → Except Cause Int} {a b dest : Operand} {s t : State}
    (h : threeOperand alu a b dest s = .ok t) : t.run = s.run := by
  obtain ⟨x, y, r, d, -, -, -, -, -, rfl⟩ := (threeOperand_eq_ok_iff _ _ _ _ _ _).mp h
  rfl

theorem conditionalJump_run {taken : Int → Bool} {cond target : Operand} {s t : State}
    (h : conditionalJump taken cond target s = .ok t) : t.run = s.run := by
  obtain ⟨c, -, ⟨-, v, -, rfl⟩ | ⟨-, rfl⟩⟩ := (conditionalJump_eq_ok_iff _ _ _ _ _).mp h <;> rfl

/-- A cycle that leaves `run` alone where it completes ends Faulted only by its raise, so `err` then holds no cause it does not
raise. -/
theorem State.complete_faulted_err_ne {s t : State} {r : Except Cause State} {c : Cause} (hrun : s.run = .running)
    (hkeep : ∀ {u}, r = .ok u → u.run = s.run) (hne : r ≠ .error c) (h : s.complete r = .next t)
    (hfaulted : t.run = .faulted) : t.err ≠ some c := by
  rcases (s.complete_eq_next_iff t r).mp h with hok | ⟨c', hraised, rfl⟩
  · simp [hkeep hok, hrun] at hfaulted
  · intro herr
    obtain rfl : c' = c := by simpa using herr
    exact hne hraised

/-- EXECUTE never reports ProgramCounterOutOfBounds: the pc is not looked at again before the next FETCH (R167). -/
theorem exec_faulted_err_ne_programCounterOutOfBounds {i : Instr} {s t : State} (hrun : s.run = .running)
    (h : exec i s = .next t) (hfaulted : t.run = .faulted) : t.err ≠ some .programCounterOutOfBounds := by
  cases i with
  | add a b dest | multiply a b dest =>
    refine State.complete_faulted_err_ne hrun threeOperand_run (threeOperand_ne_programCounterOutOfBounds ?_ a b dest s) h hfaulted
    exact fun x y => narrow_ne_programCounterOutOfBounds s.width _
  | lessThan a b dest | equal a b dest =>
    refine State.complete_faulted_err_ne hrun threeOperand_run (threeOperand_ne_programCounterOutOfBounds ?_ a b dest s) h hfaulted
    exact fun x y halu => by cases halu
  | jumpIfTrue cond target | jumpIfFalse cond target =>
    exact State.complete_faulted_err_ne hrun conditionalJump_run
      (conditionalJump_ne_programCounterOutOfBounds _ cond target s) h hfaulted
  | input dest =>
    obtain ⟨v, rest, -, ⟨-, rfl⟩ | ⟨-, rfl⟩⟩ := (execInput_eq_next_iff dest s t).mp h
    · simp [hrun] at hfaulted
    · simp
  | output src =>
    obtain ⟨-, rfl⟩ | ⟨-, rfl⟩ := (execOutput_eq_next_iff src s t).mp h
    · simp [hrun] at hfaulted
    · simp
  | halt =>
    obtain rfl := (execHalt_eq_next_iff s t).mp h
    simp at hfaulted

/-! ## The obligations -/

/-- Settles O10: the pc check of FETCH raises the cause, no other check of a fetch does, and EXECUTE never does. -/
theorem pcOutsideMemoryFaultsAtFetch : Obligations.PcOutsideMemoryFaultsAtFetch := by
  refine ⟨fun s hrun hout => ?outside, fun s t hstep hfaulted herr => ?onlyThere, rfl⟩
  case outside =>
    have hpc := State.inBounds_eq_false_of_range hout
    exact step_of_fetch_error hrun ((State.fetch_eq_programCounterOutOfBounds_iff s).mpr hpc)
  case onlyThere =>
    obtain ⟨hrun, ⟨c, hfetch, rfl⟩ | ⟨i, -, hexec⟩⟩ := step_next_cases hstep
    · obtain rfl : c = .programCounterOutOfBounds := by simpa using herr
      have hpc := (State.fetch_eq_programCounterOutOfBounds_iff s).mp hfetch
      have hrange := (s.inBounds_iff s.pc).not.mp (by simp [hpc])
      omega
    · exact absurd herr (exec_faulted_err_ne_programCounterOutOfBounds hrun hexec hfaulted)

/-- Settles O15: the fields are those of `raise`, and the state it leaves is terminal. -/
theorem faultEntryWritesRunAndErr : Obligations.FaultEntryWritesRunAndErr := by
  intro s c
  have hterminal : ∀ t, step (s.raise c) ≠ .next t := (terminalStatesTakeNoStep (s.raise c)).left (.inr (s.raise_run c))
  refine ⟨rfl, s.raise_run c, rfl, rfl, fun hnoInfo => ?_, rfl, hterminal⟩
  fin_cases hnoInfo <;> rfl

end Sys2Proof.Machine

end

section
/-! PROOFS. `30_encoding.md`: the encoder and the decoder are inverse, word by word and window by window. -/

namespace Sys2Proof

/-! ## The word of four fields -/

/-- R61, R79: the fields of the word of four fields are these fields, whether or not the mode digits are legal. -/
theorem splitWord_encodeWord {f : Fields} (hop : f.op ≤ 99) (h1 : f.d1 ≤ 9) (h2 : f.d2 ≤ 9) (h3 : f.d3 ≤ 9) :
    splitWord (encodeWord f) = .ok f := by
  obtain ⟨op, d1, d2, d3⟩ := f
  have hword : encodeWord ⟨op, d1, d2, d3⟩ = ((10000 * d3 + 1000 * d2 + 100 * d1 + op : Nat) : Int) := by
    simp [encodeWord]
  simp only at hop h1 h2 h3
  simp only [hword, splitWord, digit, Int.toNat_natCast]
  rw [if_neg (by omega), if_neg (by omega), Except.ok.injEq, Fields.mk.injEq]
  exact ⟨by omega, by omega, by omega, by omega⟩

theorem decodeWord_encodeWord_eq_checkModes {f : Fields} (hop : f.op ≤ 99) (h1 : f.d1 ≤ 9) (h2 : f.d2 ≤ 9) (h3 : f.d3 ≤ 9) :
    decodeWord (encodeWord f) = checkModes f := by
  simp only [decodeWord, splitWord_encodeWord hop h1 h2 h3]

/-- R64: fields whose mode digits are all 0 or 1 pass. -/
theorem checkModes_of_le {f : Fields} (h1 : f.d1 ≤ 1) (h2 : f.d2 ≤ 1) (h3 : f.d3 ≤ 1) : checkModes f = .ok f := by
  simp only [checkModes, if_neg (Nat.not_lt.mpr h1), if_neg (Nat.not_lt.mpr h2), if_neg (Nat.not_lt.mpr h3)]

theorem decodeWord_encodeWord {f : Fields} (hop : f.op ≤ 99) (h1 : f.d1 ≤ 1) (h2 : f.d2 ≤ 1) (h3 : f.d3 ≤ 1) :
    decodeWord (encodeWord f) = .ok f := by
  rw [decodeWord_encodeWord_eq_checkModes hop (by omega) (by omega) (by omega), checkModes_of_le h1 h2 h3]

/-- A word that passes DECODE is the word of its fields. -/
theorem encodeWord_of_decodeWord {word : Int} {f : Fields} (h : decodeWord word = .ok f) : encodeWord f = word := by
  obtain ⟨h0, hN, rfl, -, -, -⟩ := (decodeWord_eq_ok_iff word f).mp h
  simp only [encodeWord, digit]
  omega

theorem modes_le_of_decodeWord {word : Int} {f : Fields} (h : decodeWord word = .ok f) :
    f.d1 ≤ 1 ∧ f.d2 ≤ 1 ∧ f.d3 ≤ 1 := by
  obtain ⟨-, -, -, h1, h2, h3⟩ := (decodeWord_eq_ok_iff word f).mp h
  exact ⟨h1, h2, h3⟩

/-! ## The fields and the cells of an instruction -/

theorem Op.code_le (op : Op) : op.code ≤ 99 := by cases op <;> decide

theorem Op.one_le_length (op : Op) : 1 ≤ op.length := by cases op <;> decide

theorem Instr.fields_op (i : Instr) : i.fields.op = i.op.code := by cases i <;> rfl

theorem Instr.fields_modes_le (i : Instr) : i.fields.d1 ≤ 1 ∧ i.fields.d2 ≤ 1 ∧ i.fields.d3 ≤ 1 := by
  cases i <;> simp [Instr.fields, Laws.EncodedLength.mode_le]

theorem Instr.cells_length (i : Instr) : i.cells.length = i.length - 1 := by cases i <;> rfl

theorem encode_length (i : Instr) : (encode i).length = i.length := by cases i <;> rfl

/-- R69, R79: the fields and the operand cells of an instruction assemble to it, whatever cells follow. -/
theorem Instr.assemble_fields_cells (i : Instr) (rest : List Int) :
    i.op.assemble i.fields ((i.cells ++ rest).getD 0 0) ((i.cells ++ rest).getD 1 0) ((i.cells ++ rest).getD 2 0) = i := by
  cases i <;> simp [Instr.op, Instr.fields, Instr.cells, Op.assemble]

/-- Settles O2: the canonical word passes DECODE with the instruction's fields, and RESOLVE tags its cells as they were. -/
theorem decodeOfEncodeIsInstruction : Obligations.DecodeOfEncodeIsInstruction := by
  intro i rest
  obtain ⟨h1, h2, h3⟩ := i.fields_modes_le
  have hop := i.fields_op
  have hword : decodeWord (encodeWord i.fields) = .ok i.fields :=
    decodeWord_encodeWord (hop ▸ i.op.code_le) h1 h2 h3
  have hlength : i.length ≤ (encode i ++ rest).length := by
    rw [List.length_append, encode_length]
    exact Nat.le_add_right _ _
  exact (decode_eq_ok_iff _ i).mpr
    ⟨encodeWord i.fields, i.cells ++ rest, i.fields, i.op, rfl, hword, hop, hlength, (i.assemble_fields_cells rest).symm⟩

/-! ## What a decoded instruction keeps of its window -/

theorem tag_mode {d : Nat} (h : d ≤ 1) (v : Int) : (tag d v).mode = d := by
  obtain rfl | rfl : d = 0 ∨ d = 1 := by omega
  · rfl
  · rfl

/-- R60: the operand cells of an assembled instruction are the first ones it was given, as many as it has. -/
theorem Op.assemble_cells (op : Op) (f : Fields) (c1 c2 c3 : Int) :
    (op.assemble f c1 c2 c3).cells = [c1, c2, c3].take (op.length - 1) := by
  cases op <;> simp [Op.assemble, Instr.cells, Op.length]

theorem take_eq_take_getD {l : List Int} {n : Nat} (hn : n ≤ 3) (hl : n ≤ l.length) :
    l.take n = [l.getD 0 0, l.getD 1 0, l.getD 2 0].take n := by
  match n, l with
  | 0, _ => rfl
  | 1, _ :: _ => rfl
  | 2, _ :: _ :: _ => rfl
  | 3, _ :: _ :: _ :: _ => rfl

/-- R69: the mode digits of the tagged operands are those of the word. -/
theorem Op.assemble_fields_modes (op : Op) {f : Fields} (h1 : f.d1 ≤ 1) (h2 : f.d2 ≤ 1) (h3 : f.d3 ≤ 1) (c1 c2 c3 : Int) :
    (3 ≤ op.length → f.d1 = (op.assemble f c1 c2 c3).fields.d1 ∧ f.d2 = (op.assemble f c1 c2 c3).fields.d2) ∧
      (4 ≤ op.length → f.d3 = (op.assemble f c1 c2 c3).fields.d3) := by
  cases op <;> simp [Op.length, Op.assemble, Instr.fields, tag_mode, *]

/-- Every way a word and its cells can decode. -/
theorem decode_cons_eq_ok_iff (word : Int) (rest : List Int) (i : Instr) :
    decode (word :: rest) = .ok i ↔
      ∃ (f : Fields) (op : Op), decodeWord word = .ok f ∧ f.op = op.code ∧ op.length ≤ rest.length + 1 ∧
        i = op.assemble f (rest.getD 0 0) (rest.getD 1 0) (rest.getD 2 0) := by
  rw [decode_eq_ok_iff]
  constructor
  · rintro ⟨_, _, f, op, ⟨rfl, rfl⟩, h⟩
    exact ⟨f, op, h⟩
  · rintro ⟨f, op, h⟩
    exact ⟨word, rest, f, op, rfl, h⟩

/-- R60: the operand cells of a decoded instruction are the cells after its word. -/
theorem cells_of_decode {word : Int} {rest : List Int} {i : Instr} (h : decode (word :: rest) = .ok i) :
    i.cells = rest.take (i.length - 1) := by
  obtain ⟨f, op, -, -, hlen, rfl⟩ := (decode_cons_eq_ok_iff word rest i).mp h
  have hfour := op.length_le_four
  rw [Op.assemble_cells, Instr.length, Op.assemble_op]
  exact (take_eq_take_getD (by omega) (by omega)).symm

/-- Settles O3: RESOLVE takes the cells after the word as they stand and tags them with the word's digits. -/
theorem decodedInstructionHoldsWindowCells : Obligations.DecodedInstructionHoldsWindowCells := by
  intro word rest i h
  refine ⟨cells_of_decode h, i.cells_length, ?_⟩
  obtain ⟨f, op, hword, hop, -, rfl⟩ := (decode_cons_eq_ok_iff word rest i).mp h
  obtain ⟨h1, h2, h3⟩ := modes_le_of_decodeWord hword
  refine ⟨f, hword, ?_, ?_, ?_⟩
  · rw [Instr.fields_op, Op.assemble_op, hop]
  · rw [Op.assemble_op, hop]
  · simpa only [Instr.length, Op.assemble_op] using op.assemble_fields_modes h1 h2 h3 _ _ _

/-- Settles O4: words and fields by the digits of the word; a decoded instruction's cells follow its word, so its encoding
followed by the cells it does not use is its canonical window. -/
theorem wordFieldsRoundTrip : Obligations.WordFieldsRoundTrip := by
  refine ⟨fun f hop h1 h2 h3 => decodeWord_encodeWord hop h1 h2 h3, fun word f h => ?fields, fun word rest i h => ?canonical⟩
  case fields =>
    have hword := encodeWord_of_decodeWord h
    exact ⟨hword, hword.symm⟩
  case canonical =>
    have hwindow : encode i ++ rest.drop (i.length - 1) = encodeWord i.fields :: rest := by
      rw [encode, List.cons_append, cells_of_decode h, List.take_append_drop]
    exact hwindow ▸ decodeOfEncodeIsInstruction i (rest.drop (i.length - 1))

/-! ## The legal words -/

theorem mem_digits_iff (d : Int) : d ∈ ([0, 1] : List Int) ↔ ∃ n : Nat, n ≤ 1 ∧ d = n := by
  constructor
  · intro h
    fin_cases h
    · exact ⟨0, by decide⟩
    · exact ⟨1, by decide⟩
  · rintro ⟨n, hn, rfl⟩
    interval_cases n <;> decide

/-- R72: the nine opcodes. -/
theorem mem_codes_iff (c : Int) : c ∈ ([1, 2, 3, 4, 5, 6, 7, 8, 99] : List Int) ↔ ∃ op : Op, c = op.code := by
  constructor
  · intro h
    fin_cases h
    exacts [⟨.add, rfl⟩, ⟨.multiply, rfl⟩, ⟨.input, rfl⟩, ⟨.output, rfl⟩, ⟨.jumpIfTrue, rfl⟩, ⟨.jumpIfFalse, rfl⟩,
      ⟨.lessThan, rfl⟩, ⟨.equal, rfl⟩, ⟨.halt, rfl⟩]
  · rintro ⟨op, rfl⟩
    cases op <;> decide

/-- R72: the legal words are the words of a defined opcode and three mode digits 0 or 1. -/
theorem mem_legalWords_iff (word : Int) :
    word ∈ Safety.legalWords ↔
      ∃ (f : Fields) (op : Op), f.op = op.code ∧ f.d1 ≤ 1 ∧ f.d2 ≤ 1 ∧ f.d3 ≤ 1 ∧ word = encodeWord f := by
  simp only [Safety.legalWords, List.mem_flatMap, List.mem_map, mem_digits_iff, mem_codes_iff]
  constructor
  · rintro ⟨_, ⟨d3, h3, rfl⟩, _, ⟨d2, h2, rfl⟩, _, ⟨d1, h1, rfl⟩, _, ⟨op, rfl⟩, rfl⟩
    exact ⟨⟨op.code, d1, d2, d3⟩, op, rfl, h1, h2, h3, rfl⟩
  · rintro ⟨f, op, hop, h1, h2, h3, rfl⟩
    exact ⟨f.d3, ⟨f.d3, h3, rfl⟩, f.d2, ⟨f.d2, h2, rfl⟩, f.d1, ⟨f.d1, h1, rfl⟩, op.code, ⟨op, rfl⟩, by rw [encodeWord, hop]⟩

/-- R72: with cells enough for every operand a word decodes exactly when it is legal. -/
theorem exists_decode_iff_mem_legalWords (word : Int) {rest : List Int} (hrest : 3 ≤ rest.length) :
    (∃ i, decode (word :: rest) = .ok i) ↔ word ∈ Safety.legalWords := by
  rw [mem_legalWords_iff]
  constructor
  · rintro ⟨i, h⟩
    obtain ⟨f, op, hword, hop, -, -⟩ := (decode_cons_eq_ok_iff word rest i).mp h
    obtain ⟨h1, h2, h3⟩ := modes_le_of_decodeWord hword
    exact ⟨f, op, hop, h1, h2, h3, (encodeWord_of_decodeWord hword).symm⟩
  · rintro ⟨f, op, hop, h1, h2, h3, rfl⟩
    have hlen := op.length_le_four
    exact ⟨_, (decode_cons_eq_ok_iff _ rest _).mpr
      ⟨f, op, decodeWord_encodeWord (hop ▸ op.code_le) h1 h2 h3, hop, by omega, rfl⟩⟩

/-- R66: a word that passes DECODE with an undefined opcode is unknown, whatever cells follow. -/
theorem decode_of_undefined {word : Int} {f : Fields} (hword : decodeWord word = .ok f) (hop : ∀ op : Op, f.op ≠ op.code)
    (rest : List Int) : decode (word :: rest) = .error (.unknownOpcode f.op) := by
  simp only [decode, hword, resolve, (lookupOp_eq_none_iff f.op).mpr hop]

/-- R66: 0 and 9 to 98 are the undefined opcodes among the numbers below 100. -/
theorem undefined_of_range {n : Nat} (h : n = 0 ∨ 9 ≤ n ∧ n ≤ 98) (op : Op) : n ≠ op.code := by
  cases op <;> simp only [Op.code] <;> omega

theorem op_code_eq_word_mod {word : Int} {rest : List Int} {i : Instr} (h : decode (word :: rest) = .ok i) :
    (i.op.code : Int) = word % 100 := by
  obtain ⟨f, op, hword, hop, -, rfl⟩ := (decode_cons_eq_ok_iff word rest i).mp h
  obtain ⟨h0, -, rfl, -, -, -⟩ := (decodeWord_eq_ok_iff word f).mp hword
  simp only at hop
  rw [Op.assemble_op, ← hop]
  omega

/-- Settles O5: a word decodes exactly when it is the word of legal fields; the list of these is counted. -/
theorem exactlySeventyTwoLegalWords : Obligations.ExactlySeventyTwoLegalWords := by
  refine ⟨fun word rest hrest => exists_decode_iff_mem_legalWords word hrest, by decide, by decide, by decide, by decide,
    by decide, fun op => ?table, fun word rest i h => op_code_eq_word_mod h, fun n rest hn => ?undefined⟩
  case table => cases op <;> decide
  case undefined =>
    have hword : decodeWord (encodeWord ⟨n, 0, 0, 0⟩) = .ok ⟨n, 0, 0, 0⟩ :=
      decodeWord_encodeWord (show n ≤ 99 by omega) (Nat.zero_le 1) (Nat.zero_le 1) (Nat.zero_le 1)
    have hn' : encodeWord ⟨n, 0, 0, 0⟩ = (n : Int) := by simp [encodeWord]
    exact hn' ▸ decode_of_undefined hword (undefined_of_range hn) rest

/-! ## The order of the word's checks -/

/-- R63: outside the range of five digits. -/
theorem decodeWord_of_malformed {word : Int} (h : word < 0 ∨ 100000 ≤ word) : decodeWord word = .error .malformedWord := by
  rcases h with h | h
  · simp only [decodeWord, splitWord, if_pos h]
  · simp only [decodeWord, splitWord, if_neg (show ¬ word < 0 by omega), if_pos h]

/-- R63: inside it, DECODE is the check of the mode digits (R64) of the word's decimal fields. -/
theorem decodeWord_of_range {word : Int} (h0 : 0 ≤ word) (hN : word < 100000) :
    decodeWord word =
      checkModes ⟨(word % 100).toNat, (word / 100 % 10).toNat, (word / 1000 % 10).toNat, (word / 10000 % 10).toNat⟩ := by
  obtain ⟨n, rfl⟩ := Int.eq_ofNat_of_zero_le h0
  have hfields : splitWord n = .ok ⟨((n : Int) % 100).toNat, ((n : Int) / 100 % 10).toNat, ((n : Int) / 1000 % 10).toNat,
      ((n : Int) / 10000 % 10).toNat⟩ := by
    simp only [splitWord, digit, Int.toNat_natCast]
    rw [if_neg (by omega), if_neg (by omega), Except.ok.injEq, Fields.mk.injEq]
    exact ⟨by omega, by omega, by omega, by omega⟩
  simp only [decodeWord, hfields]

/-- Settles O6: the range check, then the mode digits from the third down, then the opcode. -/
theorem wordFaultsInDecoderOrder : Obligations.WordFaultsInDecoderOrder := by
  intro word
  refine ⟨decodeWord_of_malformed, fun h0 hN => ?_⟩
  rw [decodeWord_of_range h0 hN]
  refine ⟨fun h3 => ?third, fun h3 h2 => ?second, fun h3 h2 h1 => ?first, fun h3 h2 h1 => ?opcode⟩
  case third => rw [checkModes, if_pos (by dsimp only; omega)]
  case second => rw [checkModes, if_neg (by dsimp only; omega), if_pos (by dsimp only; omega)]
  case first => rw [checkModes, if_neg (by dsimp only; omega), if_neg (by dsimp only; omega), if_pos (by dsimp only; omega)]
  case opcode =>
    have hok := checkModes_of_le (f := ⟨(word % 100).toNat, (word / 100 % 10).toNat, (word / 1000 % 10).toNat,
      (word / 10000 % 10).toNat⟩) (by dsimp only; omega) (by dsimp only; omega) (by dsimp only; omega)
    refine ⟨hok, fun hop => decode_of_undefined ((decodeWord_of_range h0 hN).trans hok) (undefined_of_range ?_)⟩
    simp only [List.mem_cons, List.not_mem_nil, or_false, not_or] at hop
    dsimp only
    omega

/-! ## Ignored mode digits -/

/-- Words that pass DECODE and assemble alike decode alike: the mode digits count through the assembled instruction alone. -/
theorem decode_congr_fields {f g : Fields} {op : Op} (hf : f.op = op.code) (hg : g.op = op.code)
    (hfModes : f.d1 ≤ 1 ∧ f.d2 ≤ 1 ∧ f.d3 ≤ 1) (hgModes : g.d1 ≤ 1 ∧ g.d2 ≤ 1 ∧ g.d3 ≤ 1)
    (hsame : ∀ c1 c2 c3, op.assemble f c1 c2 c3 = op.assemble g c1 c2 c3) (rest : List Int) :
    decode (encodeWord f :: rest) = decode (encodeWord g :: rest) := by
  obtain ⟨hf1, hf2, hf3⟩ := hfModes
  obtain ⟨hg1, hg2, hg3⟩ := hgModes
  simp only [decode, decodeWord_encodeWord (hf ▸ op.code_le) hf1 hf2 hf3, decodeWord_encodeWord (hg ▸ op.code_le) hg1 hg2 hg3,
    resolve_of_code hf, resolve_of_code hg, hsame, List.length_cons, List.getD_cons_succ]

/-- R64, D7: the most significant bad mode digit is the one reported. -/
theorem checkModes_of_bad {f : Fields} (h : 1 < f.d1 ∨ 1 < f.d2 ∨ 1 < f.d3) :
    checkModes f = .error (.invalidAddressingMode (if 1 < f.d3 then f.d3 else if 1 < f.d2 then f.d2 else f.d1)) := by
  unfold checkModes
  by_cases h3 : 1 < f.d3
  · simp only [h3, if_true]
  · by_cases h2 : 1 < f.d2
    · simp only [h3, h2, if_true, if_false]
    · have h1 : 1 < f.d1 := by omega
      simp only [h3, h2, h1, if_true, if_false]

/-- Settles O7: the assembled instruction of Input, Output, Halt and the jumps holds no ignored digit; a bad one stops DECODE. -/
theorem ignoredModeDigitsAreDropped : Obligations.IgnoredModeDigitsAreDropped := by
  refine ⟨fun d1 d2 d3 rest h1 h2 h3 => ?_, fun a rest => ?_, fun op d1 d2 d3 rest hop h1 h2 h3 hbad => ?_⟩
  · have ignores (op : Op) (g1 g2 : Nat) (hg : g1 ≤ 1 ∧ g2 ≤ 1)
        (hsame : ∀ c1 c2 c3, op.assemble ⟨op.code, d1, d2, d3⟩ c1 c2 c3 = op.assemble ⟨op.code, g1, g2, 0⟩ c1 c2 c3) :
        decode (encodeWord ⟨op.code, d1, d2, d3⟩ :: rest) = decode (encodeWord ⟨op.code, g1, g2, 0⟩ :: rest) :=
      decode_congr_fields rfl rfl ⟨h1, h2, h3⟩ ⟨hg.left, hg.right, Nat.zero_le 1⟩ hsame rest
    exact ⟨ignores .input 0 0 (by decide) fun _ _ _ => rfl, ignores .output 0 0 (by decide) fun _ _ _ => rfl,
      ignores .halt 0 0 (by decide) fun _ _ _ => rfl, ignores .jumpIfTrue d1 d2 ⟨h1, h2⟩ fun _ _ _ => rfl,
      ignores .jumpIfFalse d1 d2 ⟨h1, h2⟩ fun _ _ _ => rfl⟩
  · exact ⟨decodeOfEncodeIsInstruction (.input a) rest, decodeOfEncodeIsInstruction (.output a) rest⟩
  · have hcode : op ≤ 99 := by fin_cases hop <;> decide
    have hword := (decodeWord_encodeWord_eq_checkModes (f := ⟨op, d1, d2, d3⟩) hcode h1 h2 h3).trans (checkModes_of_bad hbad)
    simp only [decode, hword]

/-- Settles O1: each sample evaluates to what the spec gives for it. -/
theorem sampleWordsDecode : Obligations.SampleWordsDecode := by
  unfold Obligations.SampleWordsDecode
  decide

end Sys2Proof

end

section
/-! PROOFS. `20_memory.md` and `WriteOperand` of `40_cycle_and_operands.md`: one cell written, and one form of the list for one
memory. -/

namespace Sys2Proof.Machine

/-- The canonical form, entry by entry: the addresses after the first are greater, the first cell is not 0. -/
theorem Memory.wf_cons_iff (k : Nat) (x : Int) (m : Memory) :
    Memory.wf ((k, x) :: m) ↔ (∀ p ∈ m, k < p.1) ∧ x ≠ 0 ∧ Memory.wf m := by
  simp only [Memory.wf, List.pairwise_cons, List.forall_mem_cons, Memory.unlisted]
  tauto

/-- An address before every listed one reads as 0. -/
theorem Memory.get_eq_zero_of_lt {m : Memory} {a : Nat} (h : ∀ p ∈ m, a < p.1) : m.get a = 0 :=
  Memory.get_eq_zero_of_not_listed m a fun p hp => Nat.ne_of_gt (h p hp)

@[simp] theorem Memory.get_cons_same (k : Nat) (x : Int) (m : Memory) : Memory.get ((k, x) :: m) k = x := by
  rw [Memory.get_cons, if_pos rfl]

theorem Memory.get_cons_of_ne {k a : Nat} (h : k ≠ a) (x : Int) (m : Memory) : Memory.get ((k, x) :: m) a = m.get a := by
  rw [Memory.get_cons, if_neg h]

/-- A memory cannot read as one whose first entry lies before all of its own: that entry is not 0. -/
theorem Memory.head_le_of_get_eq {k l : Nat} {x y : Int} {m n : Memory} (hm : Memory.wf ((k, x) :: m))
    (hn : Memory.wf ((l, y) :: n)) (h : ∀ a, Memory.get ((k, x) :: m) a = Memory.get ((l, y) :: n) a) : l ≤ k := by
  obtain ⟨-, hx, -⟩ := (Memory.wf_cons_iff k x m).mp hm
  obtain ⟨hl, -, -⟩ := (Memory.wf_cons_iff l y n).mp hn
  by_contra hkl
  have hbefore : ∀ p ∈ (l, y) :: n, k < p.1 := by
    intro p hp
    rcases List.mem_cons.mp hp with rfl | hp
    · exact Nat.not_le.mp hkl
    · exact Nat.lt_trans (Nat.not_le.mp hkl) (hl p hp)
  have hk := h k
  rw [Memory.get_cons_same, Memory.get_eq_zero_of_lt hbefore] at hk
  exact hx hk

/-- Settles O40, by induction on both lists: the heads list the same address, for either would else show a cell the other reads as
0, and neither tail lists it again. -/
theorem equalReadingMemoriesAreEqual : Obligations.EqualReadingMemoriesAreEqual := by
  intro m
  induction m with
  | nil =>
    intro n _ hn hget
    cases n with
    | nil => rfl
    | cons q n =>
      obtain ⟨l, y⟩ := q
      obtain ⟨-, hy, -⟩ := (Memory.wf_cons_iff l y n).mp hn
      exact absurd (by simpa using (hget l).symm) hy
  | cons p m ih =>
    obtain ⟨k, x⟩ := p
    intro n hm hn hget
    obtain ⟨hk, hx, hm'⟩ := (Memory.wf_cons_iff k x m).mp hm
    cases n with
    | nil => exact absurd (by simpa using hget k) hx
    | cons q n =>
      obtain ⟨l, y⟩ := q
      obtain ⟨hl, -, hn'⟩ := (Memory.wf_cons_iff l y n).mp hn
      obtain rfl : k = l :=
        Nat.le_antisymm (Memory.head_le_of_get_eq hn hm fun a => (hget a).symm) (Memory.head_le_of_get_eq hm hn hget)
      obtain rfl : x = y := by simpa using hget k
      have htail : ∀ a, Memory.get m a = Memory.get n a := by
        intro a
        by_cases ha : k = a
        · subst ha
          rw [Memory.get_eq_zero_of_lt hk, Memory.get_eq_zero_of_lt hl]
        · simpa only [Memory.get_cons_of_ne ha] using hget a
      rw [ih n hm' hn' htail]

/-- Settles O39: the memory laws at one cell of the state. -/
theorem cellReadAfterWrite : Obligations.CellReadAfterWrite := by
  intro s a v ha
  exact ⟨s.memRead_memWrite_same a v, fun b hb hne => s.memRead_memWrite_other v ha hb hne, s.mem.wf_set a.toNat v⟩

/-- Settles O38: the write's two faults, and its success as one `memWrite`. -/
theorem writeOperandChangesOneCell : Obligations.WriteOperandChangesOneCell := by
  intro s value
  refine ⟨fun v => ?literal, fun a hout => ?outside, fun a h0 hN => ?inside⟩
  case literal => exact (writeOperand_eq_error_iff s _ value _).mpr (.inl ⟨⟨v, rfl⟩, rfl⟩)
  case outside =>
    exact (writeOperand_eq_error_iff s _ value _).mpr (.inr ⟨a, rfl, State.inBounds_eq_false_of_range hout, rfl⟩)
  case inside =>
    obtain ⟨hsame, hother, -⟩ := cellReadAfterWrite s a value h0
    exact ⟨s.memWrite a value, (writeOperand_eq_ok_iff s _ _ value).mpr ⟨a, rfl, State.inBounds_of_range h0 hN, rfl⟩,
      hsame, hother, rfl⟩

end Sys2Proof.Machine

end

section
/-! PROOFS. `41_arithmetic.md` section 3 and `44_compare.md` section 3: what the ALU answers. -/

namespace Sys2Proof.Machine

theorem narrow_bits_of_mem {w : Nat} {r v : Int} (hr : r = v) (h1 : -(2 ^ (w - 1)) ≤ v) (h2 : v ≤ 2 ^ (w - 1) - 1) :
    narrow (.bits w) r = .ok v :=
  (narrow_eq_ok_iff _ r v).mpr ⟨(CellWidth.fits_bits_iff w r).mpr (hr ▸ ⟨h1, h2⟩), hr.symm⟩

theorem narrow_bits_of_not_mem {w : Nat} {r : Int} (h : r < -(2 ^ (w - 1)) ∨ 2 ^ (w - 1) - 1 < r) :
    narrow (.bits w) r = .error .arithmeticOverflow := by
  refine (narrow_eq_error_iff _ r _).mpr ⟨?_, rfl⟩
  rw [Bool.eq_false_iff, ne_eq, CellWidth.fits_bits_iff]
  omega

/-- Settles O41: both operations are `narrow` of the exact result. -/
theorem overflowExactlyOutsideTheCellRange : Obligations.OverflowExactlyOutsideTheCellRange := by
  intro w x y
  exact ⟨narrow_bits_of_mem rfl, narrow_bits_of_not_mem, narrow_bits_of_mem rfl, narrow_bits_of_not_mem, rfl, rfl⟩

/-- For an even width the two powers of the last rows of R114 multiply to `INT_MAX + 1`. -/
theorem two_pow_half_mul {w : Nat} (hw : 18 ≤ w) (heven : w % 2 = 0) :
    (2 : Int) ^ (w / 2) * 2 ^ (w / 2 - 1) = 2 ^ (w - 1) := by
  rw [← pow_add]
  congr 1
  omega

/-- Settles O42: each row is a sum or product inside or outside the range, which at 18 bits or more holds every constant of the
table. -/
theorem aluCorners : Obligations.AluCorners := by
  intro w M m v hw hM hm hv
  obtain ⟨hv1, hv2⟩ := (CellWidth.fits_bits_iff w v).mp hv
  have hpow : (2 : Int) ^ 17 ≤ 2 ^ (w - 1) := pow_le_pow_right₀ (by decide) (by omega)
  norm_num at hpow
  have inRange {r u : Int} (h : r = u ∧ -(2 ^ (w - 1)) ≤ u ∧ u ≤ 2 ^ (w - 1) - 1) : narrow (.bits w) r = .ok u :=
    let ⟨hr, hlo, hhi⟩ := h
    narrow_bits_of_mem hr hlo hhi
  have outOfRange {r : Int} := narrow_bits_of_not_mem (w := w) (r := r)
  refine ⟨inRange (by omega), inRange (by omega), inRange (by omega), inRange (by omega), outOfRange (by omega),
    outOfRange (by omega), inRange (by omega), outOfRange (by omega), inRange (by omega), inRange (by omega),
    fun hne => inRange (by omega), outOfRange (by omega), inRange (by omega), inRange (by omega), outOfRange (by omega),
    inRange (by omega), fun heven => ?_⟩
  have hhalves := two_pow_half_mul hw heven
  exact ⟨outOfRange (by rw [hhalves]; omega), inRange (by rw [neg_mul, hhalves]; omega)⟩

@[simp] theorem truth_isLess (x y : Int) : truth (isLess x y) = if x < y then 1 else 0 := by simp [truth, isLess]

@[simp] theorem truth_isEqual (x y : Int) : truth (isEqual x y) = if x = y then 1 else 0 := by simp [truth, isEqual]

theorem aluLess_eq (x y : Int) : aluLess x y = .ok (if x < y then 1 else 0) := by rw [aluLess, truth_isLess]

theorem aluEqual_eq (x y : Int) : aluEqual x y = .ok (if x = y then 1 else 0) := by rw [aluEqual, truth_isEqual]

/-- Settles O43, by the trichotomy of the integers. -/
theorem compareLaws : Obligations.CompareLaws := by
  intro x y
  refine ⟨_, _, _, aluLess_eq x y, aluEqual_eq x y, aluLess_eq y x, ?_⟩
  rcases lt_trichotomy x y with h | rfl | h
  · simp [h, h.ne, h.le.not_gt]
  · simp
  · simp [h, h.ne', h.le.not_gt]

end Sys2Proof.Machine

end

section
/-! PROOFS. The meanings of the instructions: how each completes (`41_arithmetic.md` to `45_halt.md`), how each faults
(`60_exceptions.md` section 2) and what each leaves alone. -/

namespace Sys2Proof.Machine

/-! ## The arms of `exec` through the two shared cycles -/

theorem exec_add (a b dest : Operand) (s : State) :
    exec (.add a b dest) s = s.complete (threeOperand (aluSum s.width) a b dest s) := rfl

theorem exec_multiply (a b dest : Operand) (s : State) :
    exec (.multiply a b dest) s = s.complete (threeOperand (aluProduct s.width) a b dest s) := rfl

theorem exec_lessThan (a b dest : Operand) (s : State) :
    exec (.lessThan a b dest) s = s.complete (threeOperand aluLess a b dest s) := rfl

theorem exec_equal (a b dest : Operand) (s : State) :
    exec (.equal a b dest) s = s.complete (threeOperand aluEqual a b dest s) := rfl

theorem exec_jumpIfTrue (cond target : Operand) (s : State) :
    exec (.jumpIfTrue cond target) s = s.complete (conditionalJump condTrue cond target s) := rfl

theorem exec_jumpIfFalse (cond target : Operand) (s : State) :
    exec (.jumpIfFalse cond target) s = s.complete (conditionalJump condFalse cond target s) := rfl

theorem exec_halt (s : State) : exec .halt s = .next s.halt := rfl

@[simp] theorem State.complete_ok (s t : State) : s.complete (.ok t) = .next t := rfl

@[simp] theorem State.complete_error (s : State) (c : Cause) : s.complete (.error c) = .next (s.raise c) := rfl

/-! ## Completion -/

/-- The cycle of format T on readable operands, an ALU that answers and a destination inside memory. -/
theorem threeOperand_of_reads {alu : Int → Int → Except Cause Int} {a b : Operand} {s : State} {d x y r : Int}
    (ha : readOperand s a = .ok x) (hb : readOperand s b = .ok y) (hr : alu x y = .ok r) (h0 : 0 ≤ d) (hN : d < s.memLen) :
    threeOperand alu a b (.pos d) s = .ok ((s.memWrite d r).advance 4) :=
  (threeOperand_eq_ok_iff _ _ _ _ _ _).mpr ⟨x, y, r, d, ha, hb, hr, rfl, State.inBounds_of_range h0 hN, rfl⟩

theorem aluSum_of_fits {width : CellWidth} {x y : Int} (h : width.fits (x + y) = true) : aluSum width x y = .ok (x + y) :=
  (narrow_eq_ok_iff width _ _).mpr ⟨h, rfl⟩

theorem aluProduct_of_fits {width : CellWidth} {x y : Int} (h : width.fits (x * y) = true) :
    aluProduct width x y = .ok (x * y) :=
  (narrow_eq_ok_iff width _ _).mpr ⟨h, rfl⟩

/-- R51, R99: one cell stored and the pc advanced, nothing else. -/
theorem memWrite_advance_frame (s : State) {d : Int} (r : Int) (n : Nat) (h0 : 0 ≤ d) :
    ((s.memWrite d r).advance n).memRead d = r ∧
      (∀ k : Int, 0 ≤ k → k ≠ d → ((s.memWrite d r).advance n).memRead k = s.memRead k) ∧
      (s.memWrite d r).advance n = { s with mem := ((s.memWrite d r).advance n).mem, pc := s.pc + (n : Int) } :=
  ⟨s.memRead_memWrite_same d r, fun _ hk hne => s.memRead_memWrite_other r h0 hk hne, rfl⟩

/-- Settles O44, from the shared cycle and the frame of its store. -/
theorem addCompletes : Obligations.AddCompletes := by
  intro s a b d x y ha hb hfits h0 hN
  refine ⟨_, ?_, memWrite_advance_frame s (x + y) 4 h0⟩
  rw [exec_add, threeOperand_of_reads ha hb (aluSum_of_fits hfits) h0 hN, State.complete_ok]

/-- Settles O45, from the shared cycle and the frame of its store. -/
theorem multiplyCompletes : Obligations.MultiplyCompletes := by
  intro s a b d x y ha hb hfits h0 hN
  refine ⟨_, ?_, memWrite_advance_frame s (x * y) 4 h0⟩
  rw [exec_multiply, threeOperand_of_reads ha hb (aluProduct_of_fits hfits) h0 hN, State.complete_ok]

/-- Settles O50: the stored truth value is 1 exactly under the signed order. -/
theorem lessThanCompletes : Obligations.LessThanCompletes := by
  intro s a b d x y ha hb h0 hN
  obtain ⟨hsame, hframe⟩ := memWrite_advance_frame s (if x < y then 1 else 0) 4 h0
  refine ⟨_, ?_, fun hlt => hsame.trans (if_pos hlt), fun hge => hsame.trans (if_neg (by omega)), hframe⟩
  rw [exec_lessThan, threeOperand_of_reads ha hb (aluLess_eq x y) h0 hN, State.complete_ok]

/-- Settles O51: the stored truth value is 1 exactly when the operands are equal. -/
theorem equalCompletes : Obligations.EqualCompletes := by
  intro s a b d x y ha hb h0 hN
  obtain ⟨hsame, hframe⟩ := memWrite_advance_frame s (if x = y then 1 else 0) 4 h0
  refine ⟨_, ?_, fun heq => hsame.trans (if_pos heq), fun hne => hsame.trans (if_neg hne), hframe⟩
  rw [exec_equal, threeOperand_of_reads ha hb (aluEqual_eq x y) h0 hN, State.complete_ok]

theorem exec_input_of_value {s : State} {dest v : Int} {rest : List Int} (hin : s.inChan = v :: rest) (h0 : 0 ≤ dest)
    (hN : dest < s.memLen) : exec (.input dest) s = .next (((s.withInputs rest).memWrite dest v).advance 2) :=
  (execInput_eq_next_iff dest s _).mpr ⟨v, rest, hin, .inl ⟨State.inBounds_of_range h0 hN, rfl⟩⟩

/-- Settles O46: the frame of the store is taken over the state without the value. -/
theorem inputCompletes : Obligations.InputCompletes := by
  intro s dest v rest hin h0 hN
  obtain ⟨hsame, hother, -⟩ := memWrite_advance_frame (s.withInputs rest) v 2 h0
  exact ⟨_, exec_input_of_value hin h0 hN, hsame, hother, rfl⟩

/-- Settles O47: the first of Output's two cases. -/
theorem outputCompletes : Obligations.OutputCompletes := by
  intro s src h0 hN
  exact (execOutput_eq_next_iff src s _).mpr (.inl ⟨State.inBounds_of_range h0 hN, rfl⟩)

/-- The cycle of format J, taken: R95 case (b). -/
theorem conditionalJump_of_taken {taken : Int → Bool} {cond target : Operand} {s : State} {c v : Int}
    (hc : readOperand s cond = .ok c) (htaken : taken c = true) (hv : readOperand s target = .ok v) :
    conditionalJump taken cond target s = .ok (s.jumpTo v) :=
  (conditionalJump_eq_ok_iff _ _ _ _ _).mpr ⟨c, hc, .inl ⟨htaken, v, hv, rfl⟩⟩

/-- The cycle of format J, not taken: the target is not read (D11). -/
theorem conditionalJump_of_untaken {taken : Int → Bool} {cond : Operand} {s : State} {c : Int}
    (hc : readOperand s cond = .ok c) (htaken : taken c = false) (target : Operand) :
    conditionalJump taken cond target s = .ok (s.advance 3) :=
  (conditionalJump_eq_ok_iff _ _ _ _ _).mpr ⟨c, hc, .inr ⟨htaken, rfl⟩⟩

/-- Settles O48: any value but zero takes the jump. -/
theorem jumpIfTrueCompletes : Obligations.JumpIfTrueCompletes := by
  intro s cond target c hc
  refine ⟨fun hne v hv => ?taken, fun hzero => ?untaken⟩
  case taken =>
    rw [exec_jumpIfTrue, conditionalJump_of_taken hc (by simpa [condTrue] using hne) hv]
    rfl
  case untaken =>
    rw [exec_jumpIfTrue, conditionalJump_of_untaken hc (by simpa [condTrue] using hzero)]
    rfl

/-- Settles O49: exactly zero takes the jump. -/
theorem jumpIfFalseCompletes : Obligations.JumpIfFalseCompletes := by
  intro s cond target c hc
  refine ⟨fun hzero v hv => ?taken, fun hne => ?untaken⟩
  case taken =>
    rw [exec_jumpIfFalse, conditionalJump_of_taken hc (by simpa [condFalse] using hzero) hv]
    rfl
  case untaken =>
    rw [exec_jumpIfFalse, conditionalJump_of_untaken hc (by simpa [condFalse] using hne)]
    rfl

/-- Settles O52: Halt has one outcome. -/
theorem haltCompletes : Obligations.HaltCompletes := exec_halt

/-! ## Faults -/

theorem readOperand_of_outside {s : State} {p : Int} (h : p < 0 ∨ (s.memLen : Int) ≤ p) :
    readOperand s (.pos p) = .error (.outOfBounds p) :=
  (readOperand_eq_error_iff s _ _).mpr ⟨p, rfl, State.inBounds_eq_false_of_range h, rfl⟩

/-- The four instructions of format T share one cycle and differ in the ALU operation: Add's and Multiply's answers the exact
result where it fits and overflows elsewhere, a comparison always answers. -/
theorem exec_formatT {i : Instr} {a b dest : Operand}
    (h : i ∈ [.add a b dest, .multiply a b dest, .lessThan a b dest, .equal a b dest]) (s : State) :
    ∃ alu : Int → Int → Except Cause Int, exec i s = s.complete (threeOperand alu a b dest s) ∧
      (∀ x y, i = .add a b dest → alu x y = narrow s.width (x + y)) ∧
      (∀ x y, i = .multiply a b dest → alu x y = narrow s.width (x * y)) ∧
      (∀ x y, (i = .add a b dest → s.width.fits (x + y) = true) → (i = .multiply a b dest → s.width.fits (x * y) = true) →
        ∃ r, alu x y = .ok r) := by
  simp only [List.mem_cons, List.not_mem_nil, or_false] at h
  rcases h with rfl | rfl | rfl | rfl
  · exact ⟨aluSum s.width, rfl, fun _ _ _ => rfl, fun _ _ h => (nomatch h), fun x y hadd _ => ⟨_, aluSum_of_fits (hadd rfl)⟩⟩
  · exact ⟨aluProduct s.width, rfl, fun _ _ h => (nomatch h), fun _ _ _ => rfl,
      fun x y _ hmul => ⟨_, aluProduct_of_fits (hmul rfl)⟩⟩
  · exact ⟨aluLess, rfl, fun _ _ h => (nomatch h), fun _ _ h => (nomatch h), fun x y _ _ => ⟨_, rfl⟩⟩
  · exact ⟨aluEqual, rfl, fun _ _ h => (nomatch h), fun _ _ h => (nomatch h), fun x y _ _ => ⟨_, rfl⟩⟩

/-- Settles O53: each clause is one case of the cycle's faults, whichever the ALU operation. -/
theorem threeOperandFaultsInOrder : Obligations.ThreeOperandFaultsInOrder := by
  intro s i a b dest hi
  obtain ⟨alu, hexec, hsum, hproduct, hanswer⟩ := exec_formatT hi s
  have raises {c : Cause} (h : threeOperand alu a b dest s = .error c) : exec i s = .next (s.raise c) := by
    rw [hexec, h, State.complete_error]
  have faults (c : Cause) := threeOperand_eq_error_iff alu a b dest s c
  refine ⟨fun p ha hp => ?operand1, fun x hx => ⟨fun p hb hp => ?operand2, fun y hy => ⟨fun hadd hover => ?sum,
    fun hmul hover => ?product, fun hadd hmul => ?write⟩⟩⟩
  case operand1 => exact raises ((faults _).mpr (.inl (ha ▸ readOperand_of_outside hp)))
  case operand2 => exact raises ((faults _).mpr (.inr ⟨x, hx, .inl (hb ▸ readOperand_of_outside hp)⟩))
  case sum =>
    have halu := (hsum x y hadd).trans ((narrow_eq_error_iff s.width _ _).mpr ⟨hover, rfl⟩)
    exact raises ((faults _).mpr (.inr ⟨x, hx, .inr ⟨y, hy, .inl halu⟩⟩))
  case product =>
    have halu := (hproduct x y hmul).trans ((narrow_eq_error_iff s.width _ _).mpr ⟨hover, rfl⟩)
    exact raises ((faults _).mpr (.inr ⟨x, hx, .inr ⟨y, hy, .inl halu⟩⟩))
  case write =>
    obtain ⟨r, hr⟩ := hanswer x y hadd hmul
    have badWrite {c : Cause} (hw : writeOperand s dest r = .error c) : exec i s = .next (s.raise c) :=
      raises ((faults c).mpr (.inr ⟨x, hx, .inr ⟨y, hy, .inr ⟨r, hr, hw⟩⟩⟩))
    obtain ⟨hliteral, houtside, -⟩ := writeOperandChangesOneCell s r
    exact ⟨fun v hdest => badWrite (hdest ▸ hliteral v), fun p hdest hp => badWrite (hdest ▸ houtside p hp)⟩

/-- Settles O54, from the cases of Input and Output. -/
theorem portInstructionsFaultOnBadAddress : Obligations.PortInstructionsFaultOnBadAddress := by
  intro s a
  refine ⟨fun hempty => ?waits, fun hout => ⟨fun v rest hin => ?input, ?output⟩⟩
  case waits => exact (execInput_eq_fault_iff a s _).mpr ⟨hempty, rfl⟩
  case input =>
    exact (execInput_eq_next_iff a s _).mpr ⟨v, rest, hin, .inr ⟨State.inBounds_eq_false_of_range hout, rfl⟩⟩
  case output => exact (execOutput_eq_next_iff a s _).mpr (.inr ⟨State.inBounds_eq_false_of_range hout, rfl⟩)

/-- Settles O55: a jump raises what its condition's read raises, and what its target's raises once it is taken. -/
theorem jumpsFaultOnBadAddress : Obligations.JumpsFaultOnBadAddress := by
  intro s cond target p hp
  have faults (taken : Int → Bool) := conditionalJump_eq_error_iff taken cond target s (.outOfBounds p)
  refine ⟨fun hcond => ?condition, fun c hc htarget => ?target⟩
  case condition =>
    have hread : readOperand s cond = .error (.outOfBounds p) := hcond ▸ readOperand_of_outside hp
    rw [exec_jumpIfTrue, exec_jumpIfFalse, (faults _).mpr (.inl hread), (faults _).mpr (.inl hread), State.complete_error]
    exact ⟨rfl, rfl⟩
  case target =>
    have hread : readOperand s target = .error (.outOfBounds p) := htarget ▸ readOperand_of_outside hp
    refine ⟨fun hne => ?_, fun hzero => ?_⟩
    · rw [exec_jumpIfTrue, (faults _).mpr (.inr ⟨c, hc, by simpa [condTrue] using hne, hread⟩), State.complete_error]
    · rw [exec_jumpIfFalse, (faults _).mpr (.inr ⟨c, hc, by simpa [condFalse] using hzero, hread⟩), State.complete_error]

/-! ## Frames -/

/-- Settles O56: the cycle of format T ends in one store and an advance, or in the fault entry. -/
theorem computeInstructionsFrame : Obligations.ComputeInstructionsFrame := by
  intro s t i a b dest hi h
  obtain ⟨alu, hexec, -⟩ := exec_formatT hi s
  rw [hexec] at h
  rcases (s.complete_eq_next_iff t _).mp h with hok | ⟨c, -, rfl⟩
  · obtain ⟨x, y, r, d, -, -, -, rfl, hd, rfl⟩ := (threeOperand_eq_ok_iff _ _ _ _ _ _).mp hok
    obtain ⟨h0, -⟩ := (s.inBounds_iff d).mp hd
    refine ⟨fun k hk hne => s.memRead_memWrite_other r h0 hk ?_, rfl, rfl, rfl, rfl, rfl, rfl, .inl ⟨rfl, rfl⟩⟩
    rintro rfl
    exact hne rfl
  · exact ⟨fun _ _ _ => rfl, rfl, rfl, rfl, rfl, rfl, rfl, .inr ⟨c, rfl⟩⟩

/-- Settles O57, from the cases of Input and Output. -/
theorem portInstructionsFrame : Obligations.PortInstructionsFrame := by
  intro s t a
  refine ⟨fun h => ?input, fun h => ?output⟩
  case input =>
    obtain ⟨v, rest, -, ⟨ha, rfl⟩ | ⟨-, rfl⟩⟩ := (execInput_eq_next_iff a s t).mp h
    · obtain ⟨h0, -⟩ := (s.inBounds_iff a).mp ha
      exact ⟨fun k hk hne => (s.withInputs rest).memRead_memWrite_other v h0 hk hne, rfl, rfl, rfl, rfl, rfl, .inl ⟨rfl, rfl⟩⟩
    · exact ⟨fun _ _ _ => rfl, rfl, rfl, rfl, rfl, rfl, .inr ⟨rfl, rfl, rfl, rfl⟩⟩
  case output =>
    obtain ⟨-, rfl⟩ | ⟨-, rfl⟩ := (execOutput_eq_next_iff a s t).mp h
    · exact ⟨rfl, rfl, rfl, rfl, rfl, .inl ⟨rfl, rfl⟩⟩
    · exact ⟨rfl, rfl, rfl, rfl, rfl, .inr rfl⟩

theorem conditionalJump_frame {taken : Int → Bool} {cond target : Operand} {s t : State}
    (h : s.complete (conditionalJump taken cond target s) = .next t) : t = { s with pc := t.pc } ∨ ∃ c, t = s.raise c := by
  rcases (s.complete_eq_next_iff t _).mp h with hok | ⟨c, -, rfl⟩
  · obtain ⟨c, -, ⟨-, v, -, rfl⟩ | ⟨-, rfl⟩⟩ := (conditionalJump_eq_ok_iff _ _ _ _ _).mp hok
    · exact .inl rfl
    · exact .inl rfl
  · exact .inr ⟨c, rfl⟩

/-- Settles O58: a jump moves the pc or raises, and Halt has one outcome. -/
theorem jumpAndHaltFrame : Obligations.JumpAndHaltFrame := by
  intro s t cond target
  refine ⟨fun h => ?jump, fun h => ?halt⟩
  case jump => exact h.elim conditionalJump_frame conditionalJump_frame
  case halt =>
    obtain rfl := (execHalt_eq_next_iff s t).mp h
    rfl

end Sys2Proof.Machine

end

section
/-! PROOFS. The cycle of `40_cycle_and_operands.md`: the window, the instruction it holds, and the step that runs it. -/

namespace Sys2Proof.Machine

/-- A running engine whose fetch gives an instruction executes it (R90). -/
theorem step_of_fetch_ok {s : State} {i : Instr} (hrun : s.run = .running) (h : s.fetch = .ok i) : step s = exec i s := by
  simp only [step, cycle, hrun, h]

/-- R91: cell `k` of the window is the cell at `pc + k`. -/
theorem State.window_getElem? {s : State} {k : Nat} (h : k < s.window.length) :
    s.window[k]? = some (s.memRead (s.pc + (k : Int))) := by
  rw [State.window_length] at h
  simp [State.window, List.getElem?_range h]

/-- Settles O9: the window is at most 4 cells of what is left of memory, which is not nothing. -/
theorem windowHoldsCellsFromPc : Obligations.WindowHoldsCellsFromPc := by
  intro s h0 hN
  rw [State.window_length]
  exact ⟨by omega, by omega, fun k hk => State.window_getElem? (s.window_length ▸ hk)⟩

/-- Settles O11: inside memory the fetch is `decode` of the window. -/
theorem stepRunsTheDecodedInstruction : Obligations.StepRunsTheDecodedInstruction := by
  intro s hrun h0 hN
  have hfetch : s.fetch = decode s.window := by rw [State.fetch, if_pos (State.inBounds_of_range h0 hN)]
  exact ⟨fun i hi => step_of_fetch_ok hrun (hfetch.trans hi), fun c hc => step_of_fetch_error hrun (hfetch.trans hc)⟩

/-- Where the cells at the pc are those of an encoding, the window begins with it. -/
theorem State.window_take_eq_encode {s : State} {i : Instr} (hlen : i.length ≤ s.window.length)
    (hcells : ∀ k : Nat, k < i.length → (encode i)[k]? = some (s.memRead (s.pc + k))) :
    s.window.take i.length = encode i := by
  apply List.ext_getElem?
  intro k
  by_cases hk : k < i.length
  · rw [List.getElem?_take_of_lt hk, State.window_getElem? (by omega), hcells k hk]
  · rw [List.getElem?_eq_none (by simp only [List.length_take]; omega),
      List.getElem?_eq_none (by rw [encode_length]; omega)]

/-- Settles O13: the window is the encoding and some cells after it, which decodes to the instruction. -/
theorem encodedInstructionAtPcIsExecuted : Obligations.EncodedInstructionAtPcIsExecuted := by
  intro s i hrun h0 hN hcells
  have hpos := i.op.one_le_length
  have hfour := i.op.length_le_four
  simp only [Instr.length] at hN
  have hlen : i.length ≤ s.window.length := by
    rw [State.window_length, Instr.length]
    omega
  have hwindow : encode i ++ s.window.drop i.length = s.window := by
    rw [← State.window_take_eq_encode hlen hcells, List.take_append_drop]
  have hdecode := decodeOfEncodeIsInstruction i (s.window.drop i.length)
  rw [hwindow] at hdecode
  exact (stepRunsTheDecodedInstruction s hrun h0 (by omega)).left i hdecode

/-- R60: the operand cells of a fetched instruction are cells of memory. -/
theorem State.cells_of_fetch {s : State} {i : Instr} (h : s.fetch = .ok i) {v : Int} (hv : v ∈ i.cells) :
    ∃ a, v = s.memRead a := by
  obtain ⟨hpc, hdecode⟩ := (s.fetch_eq_ok_iff i).mp h
  obtain ⟨rest, hwindow⟩ := State.window_eq_cons hpc
  rw [hwindow] at hdecode
  rw [cells_of_decode hdecode] at hv
  have hmem : v ∈ s.window := hwindow ▸ List.mem_cons_of_mem _ (List.mem_of_mem_take hv)
  obtain ⟨k, -, rfl⟩ := List.mem_map.mp hmem
  exact ⟨_, rfl⟩

/-- Settles O16, cause by cause and state by state. -/
theorem codesOfCausesAndRunStates : Obligations.CodesOfCausesAndRunStates := by
  refine ⟨fun c => ?code, fun n => ⟨rfl, rfl⟩, fun a => rfl, fun c hc => ?info, fun s => ?run⟩
  case code => cases c <;> rfl
  case info => fin_cases hc <;> rfl
  case run => exact ⟨fun h => by rw [State.runCode, h]; rfl, fun h => by rw [State.runCode, h]; rfl,
      fun h => by rw [State.runCode, h]; rfl⟩

/-- Settles O59: the two terminal arms of the cycle. -/
theorem terminalStopsAreNamed : Obligations.TerminalStopsAreNamed := by
  have hfaulted {s : State} (h : s.run = .faulted) : step s = .fault .engineFaulted := by simp only [step, cycle, h]
  intro s
  exact ⟨fun h => by simp only [step, cycle, h], hfaulted, fun c => hfaulted (s.raise_run c)⟩

end Sys2Proof.Machine

end

section
/-! PROOFS. What a step can do to the whole machine (`10_state.md`, `60_exceptions.md` section 3, `70_reset_and_hazards.md`), said
once for every rule about steps. -/

namespace Sys2Proof.Machine

open Sys2Proof.Safety

/-- The effects of a cycle that gives a next state: the fault entry, with Input's value taken or without, or one of six completed
forms, each with the instruction that was fetched. -/
inductive StepEffect (s : State) : State → Prop
  | raised (c : Cause) : StepEffect s (s.raise c)
  | inputRaised {dest v : Int} {rest : List Int} (hfetch : s.fetch = .ok (.input dest)) (hin : s.inChan = v :: rest) :
      StepEffect s ((s.withInputs rest).raise (.outOfBounds dest))
  | stored {i : Instr} {d r : Int} (hfetch : s.fetch = .ok i) (hlength : i.length = 4) (hstore : storeAddress i = some d)
      (hd : s.inBounds d = true) (hr : s.width.fits r = true ∨ r = 0 ∨ r = 1) : StepEffect s ((s.memWrite d r).advance 4)
  | inputStored {dest v : Int} {rest : List Int} (hfetch : s.fetch = .ok (.input dest)) (hin : s.inChan = v :: rest)
      (hdest : s.inBounds dest = true) : StepEffect s (((s.withInputs rest).memWrite dest v).advance 2)
  | delivered {src : Int} (hfetch : s.fetch = .ok (.output src)) : StepEffect s ((s.deliver (s.memRead src)).advance 2)
  | jumped {cond target : Operand} {v : Int}
      (hfetch : s.fetch = .ok (.jumpIfTrue cond target) ∨ s.fetch = .ok (.jumpIfFalse cond target))
      (hv : readOperand s target = .ok v) : StepEffect s (s.jumpTo v)
  | passed {i : Instr} (hfetch : s.fetch = .ok i) (hlength : i.length = 3) : StepEffect s (s.advance 3)
  | halted (hfetch : s.fetch = .ok .halt) : StepEffect s s.halt

/-- Every step with a next state starts from Running and has one of the effects. -/
theorem step_effect {s t : State} (h : step s = .next t) : s.run = .running ∧ StepEffect s t := by
  obtain ⟨hrun, ⟨c, -, rfl⟩ | ⟨i, hfetch, hexec⟩⟩ := step_next_cases h
  · exact ⟨hrun, .raised c⟩
  · refine ⟨hrun, ?_⟩
    obtain ⟨c, rfl⟩ | ⟨dest, v, rest, rfl, hin, -, rfl⟩ | ⟨a, b, d, r, hi, hd, hr, rfl⟩ | ⟨dest, v, rest, rfl, hin, hdest, rfl⟩ |
      ⟨src, rfl, -, rfl⟩ | ⟨cond, target, hi, ⟨v, hv, rfl⟩ | rfl⟩ | ⟨rfl, rfl⟩ := exec_next_cases hexec
    · exact .raised c
    · exact .inputRaised hfetch hin
    · have hform : i.length = 4 ∧ storeAddress i = some d := by rcases hi with rfl | rfl | rfl | rfl <;> exact ⟨rfl, rfl⟩
      exact .stored hfetch hform.left hform.right hd hr
    · exact .inputStored hfetch hin hdest
    · exact .delivered hfetch
    · exact .jumped (hi.imp (fun h => h ▸ hfetch) (fun h => h ▸ hfetch)) hv
    · exact .passed hfetch (by rcases hi with rfl | rfl <;> rfl)
    · exact .halted hfetch

/-- Settles O24: no effect touches the parameters. -/
theorem parametersNeverChange : Obligations.ParametersNeverChange := by
  intro s t h
  obtain ⟨-, heffect⟩ := step_effect h
  cases heffect <;> exact ⟨rfl, rfl⟩

/-- Settles O29: outside the fault entry and Halt no effect writes a status register. -/
theorem statusWrittenOnlyAtTheEnd : Obligations.StatusWrittenOnlyAtTheEnd := by
  intro s t h
  obtain ⟨hrun, heffect⟩ := step_effect h
  refine ⟨hrun, ?_⟩
  cases heffect <;> simp [hrun]

/-- Settles O30: Output's and Input's effects are the only ones on the port. -/
theorem stepMakesAtMostOnePortOperation : Obligations.StepMakesAtMostOnePortOperation := by
  intro s t h
  obtain ⟨-, heffect⟩ := step_effect h
  cases heffect with
  | delivered hfetch => exact .inr (.inl ⟨_, hfetch, rfl, rfl, rfl⟩)
  | inputRaised hfetch hin | inputStored hfetch hin => exact .inr (.inr ⟨_, _, hfetch, hin, rfl, rfl⟩)
  | _ => exact .inl ⟨rfl, rfl, rfl⟩

/-- Settles O31: the two storing effects write one cell, at the address of the instruction fetched. -/
theorem stepWritesOnlyTheStoreAddress : Obligations.StepWritesOnlyTheStoreAddress := by
  intro s t a h ha hne
  obtain ⟨-, heffect⟩ := step_effect h
  have written {u : State} {d r : Int} (hread : ∀ k, u.memRead k = s.memRead k) (hd : s.inBounds d = true)
      (hne : (u.memWrite d r).memRead a ≠ s.memRead a) : a = d ∧ a < s.memLen := by
    obtain ⟨h0, hN⟩ := (s.inBounds_iff d).mp hd
    by_cases had : a = d
    · exact ⟨had, had ▸ hN⟩
    · exact absurd ((u.memRead_memWrite_other r h0 ha had).trans (hread a)) hne
  cases heffect with
  | stored hfetch _ hstore hd _ =>
    obtain ⟨rfl, hN⟩ := written (fun _ => rfl) hd hne
    exact ⟨hN, _, hfetch, hstore⟩
  | inputStored hfetch _ hdest =>
    obtain ⟨rfl, hN⟩ := written (u := s.withInputs _) (fun _ => rfl) hdest hne
    exact ⟨hN, _, hfetch, rfl⟩
  | _ => exact absurd rfl hne

/-- Settles O25: the fault entry is over the state at the fetch, or over it without the value Input took. -/
theorem faultingCycleIsPrecise : Obligations.FaultingCycleIsPrecise := by
  intro s t h hfaulted
  obtain ⟨hrun, heffect⟩ := step_effect h
  cases heffect with
  | raised c => exact ⟨rfl, rfl, .inl rfl⟩
  | inputRaised hfetch hin => exact ⟨rfl, rfl, .inr ⟨_, _, hfetch, hin⟩⟩
  | _ => simp [hrun] at hfaulted

/-- Settles O26: Halt alone has the halting effect, and a fetched Halt has no other. -/
theorem onlyHaltSetsHalted : Obligations.OnlyHaltSetsHalted := by
  intro s t h
  obtain ⟨hrun, heffect⟩ := step_effect h
  have hhalts (hfetch : s.fetch = .ok .halt) : t.run = .halted := by
    rw [step_of_fetch_ok hrun hfetch, exec_halt, Host.Outcome.next.injEq] at h
    rw [← h, State.halt_run]
  refine ⟨⟨fun hhalted => ?fetched, hhalts⟩, fun hhalted => ?state⟩
  case fetched => cases heffect with
    | halted hfetch => exact hfetch
    | _ => simp [hrun] at hhalted
  case state => cases heffect with
    | halted hfetch => rfl
    | _ => simp [hrun] at hhalted

/-- Settles O27: the only stop of a running engine is that of the meaning it executes. -/
theorem onlyInputWaits : Obligations.OnlyInputWaits := by
  intro s
  cases hfetch : s.fetch with
  | error c =>
    refine ⟨fun q => ?_, fun hrun f => ?_⟩
    · cases hrun : s.run <;> simp [step, cycle, hrun, hfetch]
    · simp [step_of_fetch_error hrun hfetch]
  | ok i =>
    refine ⟨fun q => ?_, fun hrun f => ?_⟩
    · cases hrun : s.run <;> simp [step, cycle, hrun, hfetch, exec_ne_refused]
    · rw [step_of_fetch_ok hrun hfetch, exec_eq_fault_iff]
      simp only [Except.ok.injEq]
      tauto

end Sys2Proof.Machine

end

section
/-! PROOFS. The invariant of a run (`10_state.md`): what reset, the loader and the host's acts establish, and every step keeps. -/

namespace Sys2Proof

/-- R6: the legal widths. -/
theorem CellWidth.legal_iff (width : CellWidth) :
    width.legal = true ↔ width = .unbounded ∨ ∃ w, width = .bits w ∧ 18 ≤ w := by
  cases width <;> simp [CellWidth.legal]

/-- R7: the legal lengths. -/
theorem CellWidth.memLenOk_iff (width : CellWidth) (n : Nat) :
    width.memLenOk n = true ↔ 1 ≤ n ∧ width.fits (n + 3) = true := by
  simp [CellWidth.memLenOk]

theorem CellWidth.fits_zero {width : CellWidth} (h : width.legal = true) : width.fits 0 = true :=
  width.fits_small h (by decide) (by decide)

theorem CellWidth.fits_one {width : CellWidth} (h : width.legal = true) : width.fits 1 = true :=
  width.fits_small h (by decide) (by decide)

end Sys2Proof

namespace Sys2Proof.Machine

open Sys2Proof.Safety

/-! ## Reset and load -/

/-- The state after reset meets the invariant where its width, length, memory and queue do. -/
theorem inv_atReset {width : CellWidth} {memLen : Nat} {mem : Memory} {inputs : List Int} (hwidth : width.legal = true)
    (hlen : width.memLenOk memLen = true) (hmem : MemLegal (State.atReset width memLen mem inputs))
    (hinputs : ∀ v ∈ inputs, width.fits v = true) : Inv (State.atReset width memLen mem inputs) where
  params := ⟨hwidth, hlen⟩
  mem := hmem
  values := ⟨CellWidth.fits_zero hwidth, hinputs, by simp⟩
  outputs := rfl
  status := by simp [StatusAgrees]

/-- Settles O20: the reset length is the greatest of its width, and no cell is listed. -/
theorem resetMeetsInvariant : Obligations.ResetMeetsInvariant := by
  refine inv_atReset (by decide) ?_ ⟨⟨.nil, by simp⟩, by simp⟩ (by simp)
  rw [CellWidth.memLenOk_iff]
  decide

/-- Settles O22: the fields of `State.reset` as it is written. -/
theorem resetStateValues : Obligations.ResetStateValues :=
  ⟨rfl, rfl, rfl, rfl, rfl, rfl, fun _ => rfl, rfl, rfl, rfl⟩

/-- Settles O21: memory is the image's, and the rest is `atReset`. -/
theorem resetLeavesTheImageAndPcZero : Obligations.ResetLeavesTheImageAndPcZero := by
  intro width image inputs
  refine ⟨rfl, fun k hk => ?_, rfl, rfl, rfl, rfl, rfl, rfl⟩
  have hread : (State.boot width image inputs).memRead k = image.getD k 0 := Memory.get_ofImage image k
  rw [hread, List.getElem?_eq_getElem hk, List.getD_eq_getElem _ _ hk]

/-- The loader's contract (R192), as the conjunction of what it checks. -/
theorem State.load_eq_some_iff (width : CellWidth) (image inputs : List Int) (s : State) :
    State.load width image inputs = some s ↔
      (width.legal = true ∧ width.memLenOk image.length = true ∧ (∀ v ∈ image, width.fits v = true) ∧
        ∀ v ∈ inputs, width.fits v = true) ∧ s = State.boot width image inputs := by
  simp only [State.load, Option.ite_none_right_eq_some, Option.some.injEq, Bool.and_eq_true, List.all_eq_true,
    eq_comm (a := s), and_assoc]

/-- R21, R31: a loaded image of cell values is legal memory. -/
theorem memLegal_boot {width : CellWidth} {image : List Int} (himage : ∀ v ∈ image, width.fits v = true) (inputs : List Int) :
    MemLegal (State.boot width image inputs) := by
  refine ⟨Memory.wf_ofImage image, fun p hp => ?_⟩
  obtain ⟨-, hlt, hmem, -⟩ := Memory.mem_ofImageFrom image 0 p hp
  exact ⟨by simpa [State.boot] using hlt, himage _ hmem⟩

/-- Settles O23: the loader's checks are the legality of what it is given, and what it makes is the state after reset. -/
theorem loaderAcceptsExactlyLegalImages : Obligations.LoaderAcceptsExactlyLegalImages := by
  intro width image inputs
  refine ⟨?accepts, fun v => ⟨rfl, fun w => CellWidth.fits_bits_iff w v⟩, fun s h => ?state⟩
  case accepts =>
    simp only [State.load_eq_some_iff, CellWidth.legal_iff, CellWidth.memLenOk_iff, exists_and_left, exists_eq, and_true,
      and_assoc]
  case state =>
    obtain ⟨⟨hwidth, hlen, himage, hinputs⟩, rfl⟩ := (State.load_eq_some_iff width image inputs s).mp h
    exact ⟨rfl, inv_atReset hwidth hlen (memLegal_boot himage inputs) hinputs⟩

/-- Settles O60: a supply changes the queue alone; a reset keeps the parameters and the memory, which the
invariant covers. -/
theorem hostActsKeepInvariant : Obligations.HostActsKeepInvariant := by
  intro s hinv
  refine ⟨fun v => ⟨?_, fun t h => ?supply⟩, fun inputs => ⟨?_, fun t h => ?reset⟩⟩
  · simp only [State.supplyInput_eq_some_iff, exists_and_left, exists_eq, and_true]
  case supply =>
    obtain ⟨hv, rfl⟩ := (s.supplyInput_eq_some_iff t v).mp h
    obtain ⟨hpc, hin, hout⟩ := hinv.values
    refine ⟨rfl, hinv.params, hinv.mem, ⟨hpc, fun u hu => ?_, hout⟩, hinv.outputs, hinv.status⟩
    rcases List.mem_append.mp hu with hu | hu
    · exact hin u hu
    · rwa [List.mem_singleton.mp hu]
  · simp only [State.resetWithoutReload_eq_some_iff, exists_and_left, exists_eq, and_true]
  case reset =>
    obtain ⟨hinputs, rfl⟩ := (s.resetWithoutReload_eq_some_iff t inputs).mp h
    obtain ⟨hwidth, hlen⟩ := hinv.params
    exact ⟨rfl, rfl, rfl, rfl, rfl, rfl, rfl, rfl, inv_atReset hwidth hlen hinv.mem hinputs⟩

/-! ## What the invariant says of reads -/

section

variable {s : State}

/-- Every cell reads as a cell value (R21), a listed one as its entry and any other as 0. -/
theorem fits_memRead_of_inv (hinv : Inv s) (a : Int) : s.width.fits (s.memRead a) = true := by
  rcases Memory.get_mem s.mem a.toNat with hzero | hlisted
  · rw [State.memRead, hzero]
    exact CellWidth.fits_zero hinv.params.left
  · exact (hinv.mem.right _ hlisted).right

/-- Settles O12: the operand cells of a fetched instruction are cells of memory. -/
theorem fetchedInstructionIsWellFormed : Obligations.FetchedInstructionIsWellFormed := by
  intro s i hinv hfetch
  refine List.all_eq_true.mpr fun v hv => ?_
  obtain ⟨a, rfl⟩ := State.cells_of_fetch hfetch hv
  exact fits_memRead_of_inv hinv a

theorem fits_readOperand (hinv : Inv s) {o : Operand} {v : Int} (ho : s.width.fits o.cell = true)
    (h : readOperand s o = .ok v) : s.width.fits v = true := by
  obtain rfl | ⟨a, rfl, -, rfl⟩ := (readOperand_eq_ok_iff s o v).mp h
  · exact ho
  · exact fits_memRead_of_inv hinv a

/-- R7, R67: the pc after a sequential advance is a cell value, because the instruction lies inside memory and `N + 3` fits. -/
theorem fits_pc_after_fetch (hinv : Inv s) {i : Instr} (hfetch : s.fetch = .ok i) :
    s.width.fits (s.pc + i.length) = true := by
  obtain ⟨h0, hN⟩ := State.fetch_range hfetch
  obtain ⟨hwidth, hlen⟩ := hinv.params
  obtain ⟨-, hlen⟩ := (CellWidth.memLenOk_iff _ _).mp hlen
  exact s.width.fits_between (CellWidth.fits_zero hwidth) hlen (by omega) (by omega)

/-- R24, R25: while Running nothing is in `err` or `result`. -/
theorem status_of_running (hinv : Inv s) (hrun : s.run = .running) : s.err = none ∧ s.result = none := by
  obtain ⟨herr, hresult⟩ := hinv.status
  simp only [hrun, reduceCtorEq, iff_false, Bool.not_eq_true, Option.isSome_eq_false_iff, Option.isNone_iff_eq_none, if_false]
    at herr hresult
  exact ⟨herr, hresult⟩

theorem memLegal_memWrite (hmem : MemLegal s) {d r : Int} (hd : s.inBounds d = true) (hr : s.width.fits r = true) :
    MemLegal (s.memWrite d r) := by
  obtain ⟨hwf, hcells⟩ := hmem
  obtain ⟨h0, hN⟩ := (s.inBounds_iff d).mp hd
  refine ⟨s.mem.wf_set d.toNat r hwf, fun p hp => ?_⟩
  rcases Memory.mem_set s.mem d.toNat r p hp with rfl | hp
  · exact ⟨show d.toNat < s.memLen by omega, hr⟩
  · exact hcells p hp

/-! ## Every step keeps it -/

/-- A running engine that goes on with legal memory, pc, queue and outputs, and with `err` and `result` untouched, still meets the
invariant. -/
theorem inv_of_running (hinv : Inv s) (hrun : s.run = .running) {t : State} (hwidth : t.width = s.width)
    (hlen : t.memLen = s.memLen) (hmem : MemLegal t) (hvalues : ValuesLegal t) (hout : OutputsAgree t)
    (hstatus : t.run = s.run ∧ t.err = s.err ∧ t.result = s.result) : Inv t := by
  obtain ⟨herr, hresult⟩ := status_of_running hinv hrun
  obtain ⟨hrun', herr', hresult'⟩ := hstatus
  refine ⟨?_, hmem, hvalues, hout, ?_⟩
  · rw [ParamsLegal, hwidth, hlen]
    exact hinv.params
  · simp [StatusAgrees, hrun', herr', hresult', hrun, herr, hresult]

/-- The fault entry keeps the invariant: it fills `err` and leaves `result` absent. -/
theorem inv_raise (hinv : Inv s) (hrun : s.run = .running) (c : Cause) : Inv (s.raise c) := by
  obtain ⟨-, hresult⟩ := status_of_running hinv hrun
  exact ⟨hinv.params, hinv.mem, hinv.values, hinv.outputs, by simp [StatusAgrees, hresult]⟩

theorem inv_halt (hinv : Inv s) (hrun : s.run = .running) : Inv s.halt := by
  obtain ⟨herr, -⟩ := status_of_running hinv hrun
  exact ⟨hinv.params, hinv.mem, hinv.values, hinv.outputs, by simp [StatusAgrees, herr]⟩

/-- Taking the next value keeps the invariant, and the value taken is a cell value (R27, D24). -/
theorem inv_withInputs (hinv : Inv s) {v : Int} {rest : List Int} (hin : s.inChan = v :: rest) :
    Inv (s.withInputs rest) ∧ s.width.fits v = true := by
  obtain ⟨hpc, hqueue, hlog⟩ := hinv.values
  rw [hin, List.forall_mem_cons] at hqueue
  obtain ⟨hv, hrest⟩ := hqueue
  exact ⟨⟨hinv.params, hinv.mem, ⟨hpc, hrest, hlog⟩, hinv.outputs, hinv.status⟩, hv⟩

/-- One cell value stored inside memory and the pc advanced inside the cell range. -/
theorem inv_memWrite_advance (hinv : Inv s) (hrun : s.run = .running) {d r : Int} {n : Nat} (hd : s.inBounds d = true)
    (hr : s.width.fits r = true) (hpc : s.width.fits (s.pc + (n : Int)) = true) : Inv ((s.memWrite d r).advance n) := by
  obtain ⟨-, hqueue, hlog⟩ := hinv.values
  exact inv_of_running hinv hrun rfl rfl (memLegal_memWrite hinv.mem hd hr) ⟨hpc, hqueue, hlog⟩ hinv.outputs ⟨rfl, rfl, rfl⟩

theorem inv_deliver_advance (hinv : Inv s) (hrun : s.run = .running) {v : Int} {n : Nat} (hv : s.width.fits v = true)
    (hpc : s.width.fits (s.pc + (n : Int)) = true) : Inv ((s.deliver v).advance n) := by
  obtain ⟨-, hqueue, hlog⟩ := hinv.values
  have hout : s.outChan ++ [v] = s.outlog ++ [v] := by rw [hinv.outputs]
  refine inv_of_running hinv hrun rfl rfl hinv.mem ⟨hpc, hqueue, fun u hu => ?_⟩ hout ⟨rfl, rfl, rfl⟩
  rcases List.mem_append.mp hu with hu | hu
  · exact hlog u hu
  · exact List.mem_singleton.mp hu ▸ hv

theorem inv_jumpTo (hinv : Inv s) (hrun : s.run = .running) {v : Int} (hv : s.width.fits v = true) : Inv (s.jumpTo v) := by
  obtain ⟨-, hqueue, hlog⟩ := hinv.values
  exact inv_of_running hinv hrun rfl rfl hinv.mem ⟨hv, hqueue, hlog⟩ hinv.outputs ⟨rfl, rfl, rfl⟩

/-- A jump's target operand is well formed, so the value it reads as is a cell value. -/
theorem fits_jump_target (hinv : Inv s) {cond target : Operand} {v : Int}
    (hfetch : s.fetch = .ok (.jumpIfTrue cond target) ∨ s.fetch = .ok (.jumpIfFalse cond target))
    (hv : readOperand s target = .ok v) : s.width.fits v = true := by
  have hwf : ∀ u ∈ [cond.cell, target.cell], s.width.fits u = true := by
    rcases hfetch with h | h <;> exact List.all_eq_true.mp (fetchedInstructionIsWellFormed s _ hinv h)
  exact fits_readOperand hinv (hwf _ (by simp)) hv

end

/-- Settles O19: each effect stores, delivers or loads cell values only, and moves the pc inside the cell range. -/
theorem stepKeepsInvariant : Obligations.StepKeepsInvariant := by
  intro s t hinv h
  obtain ⟨hrun, heffect⟩ := step_effect h
  cases heffect with
  | raised c => exact inv_raise hinv hrun c
  | inputRaised _ hin => exact inv_raise (inv_withInputs hinv hin).left hrun _
  | @stored i d r hfetch hlength _ hd hr =>
    have hfits : s.width.fits r = true := by
      rcases hr with hr | rfl | rfl
      · exact hr
      · exact CellWidth.fits_zero hinv.params.left
      · exact CellWidth.fits_one hinv.params.left
    exact inv_memWrite_advance hinv hrun hd hfits (hlength ▸ fits_pc_after_fetch hinv hfetch)
  | inputStored hfetch hin hdest =>
    obtain ⟨htaken, hv⟩ := inv_withInputs hinv hin
    exact inv_memWrite_advance htaken hrun hdest hv (fits_pc_after_fetch hinv hfetch)
  | delivered hfetch => exact inv_deliver_advance hinv hrun (fits_memRead_of_inv hinv _) (fits_pc_after_fetch hinv hfetch)
  | jumped hfetch hv => exact inv_jumpTo hinv hrun (fits_jump_target hinv hfetch hv)
  | passed hfetch hlength => exact inv_jumpTo hinv hrun (hlength ▸ fits_pc_after_fetch hinv hfetch)
  | halted _ => exact inv_halt hinv hrun

/-- Settles O34: the report reads `result` and `err`, which the invariant ties to `run`. -/
theorem reportTellsHowTheRunEnded : Obligations.ReportTellsHowTheRunEnded := by
  intro s hinv
  obtain ⟨herr, hresult⟩ := hinv.status
  have hhalted (h : s.run = .halted) : s.report = some (.halted (s.memRead 0) s.finalMemory s.outlog) := by
    rw [if_pos h] at hresult
    simp only [State.report, h, hresult, Option.map_some]
  have hfaulted (h : s.run = .faulted) : ∃ c, s.err = some c ∧ s.report = some (.faulted c) := by
    obtain ⟨c, hc⟩ := Option.isSome_iff_exists.mp (herr.mpr h)
    exact ⟨c, hc, by simp only [State.report, h, hc, Option.map_some]⟩
  refine ⟨⟨fun hnone => ?_, fun h => by simp only [State.report, h]⟩, hhalted, hfaulted, by simp [State.finalMemory],
    fun k hk => ?_⟩
  · cases h : s.run with
    | running => rfl
    | halted => simp [hhalted h] at hnone
    | faulted =>
      obtain ⟨c, -, hreport⟩ := hfaulted h
      simp [hreport] at hnone
  · simp [State.finalMemory, List.getElem?_range hk]

end Sys2Proof.Machine

end

section
/-! PROOFS. Waits, stores into code and bad jump targets: statements about a step and what the next one finds. -/

namespace Sys2Proof.Machine

open Sys2Proof.Safety

/-- Every stop: a terminal state's, or the wait of an Input with nothing queued (R100, R101, R124). -/
theorem step_eq_fault_iff (s : State) (f : Fault) :
    step s = .fault f ↔
      s.run = .halted ∧ f = .engineHalted ∨ s.run = .faulted ∧ f = .engineFaulted ∨
        s.run = .running ∧ f = .waitingForInput ∧ s.inChan = [] ∧ ∃ dest, s.fetch = .ok (.input dest) := by
  obtain ⟨hhalted, hfaulted, -⟩ := terminalStopsAreNamed s
  cases hrun : s.run with
  | halted => simp [hhalted hrun, eq_comm]
  | faulted => simp [hfaulted hrun, eq_comm]
  | running => simpa [hrun] using (onlyInputWaits s).right hrun f

/-- Settles O28: the fetch does not see the queue, so the Input runs with the value supplied. -/
theorem suppliedInputEndsTheWait : Obligations.SuppliedInputEndsTheWait := by
  intro s s' dest v hwait hfetch h0 hN hsupply
  obtain ⟨-, rfl⟩ := (s.supplyInput_eq_some_iff s' v).mp hsupply
  obtain ⟨-, h⟩ | ⟨-, h⟩ | ⟨hrun, -, hempty, -⟩ := (step_eq_fault_iff s _).mp hwait
  · cases h
  · cases h
  have hin : s.inChan ++ [v] = v :: [] := by rw [hempty, List.nil_append]
  have hstep := step_of_fetch_ok (s := { s with inChan := s.inChan ++ [v] }) hrun hfetch
  exact ⟨_, hstep.trans (exec_input_of_value hin h0 hN), State.memRead_memWrite_same _ dest v, rfl, rfl, hrun⟩

/-- Every storing instruction ends in one store and an advance by its length, over what Input leaves queued. -/
theorem exec_of_stores {s : State} {i : Instr} {d r : Int} (h : Stores s d r i) (h0 : 0 ≤ d) (hN : d < s.memLen) :
    ∃ queue, exec i s = .next (((s.withInputs queue).memWrite d r).advance i.length) := by
  cases i with
  | add a b dest =>
    obtain ⟨rfl, ⟨x, y, ⟨hx, hy⟩, rfl⟩, hfits⟩ := h
    exact ⟨s.inChan, by rw [exec_add, threeOperand_of_reads hx hy (aluSum_of_fits hfits) h0 hN]; rfl⟩
  | multiply a b dest =>
    obtain ⟨rfl, ⟨x, y, ⟨hx, hy⟩, rfl⟩, hfits⟩ := h
    exact ⟨s.inChan, by rw [exec_multiply, threeOperand_of_reads hx hy (aluProduct_of_fits hfits) h0 hN]; rfl⟩
  | lessThan a b dest =>
    obtain ⟨rfl, x, y, ⟨hx, hy⟩, rfl⟩ := h
    exact ⟨s.inChan, by rw [exec_lessThan, threeOperand_of_reads hx hy (aluLess_eq x y) h0 hN]; rfl⟩
  | equal a b dest =>
    obtain ⟨rfl, x, y, ⟨hx, hy⟩, rfl⟩ := h
    exact ⟨s.inChan, by rw [exec_equal, threeOperand_of_reads hx hy (aluEqual_eq x y) h0 hN]; rfl⟩
  | input dest =>
    obtain ⟨rfl, rest, hin⟩ := h
    exact ⟨rest, exec_input_of_value hin h0 hN⟩
  | output src | jumpIfTrue cond target | jumpIfFalse cond target | halt => exact h.elim

/-- Settles O35: the next window reads the memory the store left. -/
theorem storeIntoCodeSeenByNextFetch : Obligations.StoreIntoCodeSeenByNextFetch := by
  intro s i d r hrun hfetch hstores h0 hN
  obtain ⟨queue, hexec⟩ := exec_of_stores hstores h0 hN
  refine ⟨_, (step_of_fetch_ok hrun hfetch).trans hexec, rfl, hrun, fun p hp k hk => ?_⟩
  rw [State.window_getElem? hk, Option.some.injEq]
  show ((s.withInputs queue).memWrite d r).memRead (p + k) = _
  split
  next hpk => rw [hpk, State.memRead_memWrite_same]
  next hpk => exact (s.withInputs queue).memRead_memWrite_other r h0 (by omega) hpk

/-- Settles O36: the taken jump loads the target, and the pc check of the next fetch finds it. -/
theorem badJumpTargetFaultsAtNextFetch : Obligations.BadJumpTargetFaultsAtNextFetch := by
  intro s cond target c v hrun hfetch hc hv hout
  have hjump : step s = .next { s with pc := v } := by
    rcases hfetch with ⟨hfetch, hne⟩ | ⟨hfetch, hzero⟩
    · exact (step_of_fetch_ok hrun hfetch).trans ((jumpIfTrueCompletes s cond target c hc).left hne v hv)
    · exact (step_of_fetch_ok hrun hfetch).trans ((jumpIfFalseCompletes s cond target c hc).left hzero v hv)
  exact ⟨_, hjump, rfl, pcOutsideMemoryFaultsAtFetch.left { s with pc := v } hrun hout⟩

end Sys2Proof.Machine

end

section
/-! PROOFS. What an instruction can see (R101, R175): two states with the same width, memory, pc and run state take parallel
steps. -/

namespace Sys2Proof.Machine

open Sys2Proof.Safety

/-- What every instruction may read: all but the status registers of the host, the channels and `outlog`. -/
structure SameMachine (s s' : State) : Prop where
  width : s'.width = s.width
  memLen : s'.memLen = s.memLen
  mem : s'.mem = s.mem
  pc : s'.pc = s.pc
  run : s'.run = s.run

section

variable {s s' : State} (h : SameMachine s s')

include h

theorem SameMachine.memRead_eq (a : Int) : s'.memRead a = s.memRead a := by
  rw [State.memRead, State.memRead, h.mem]

theorem SameMachine.inBounds_eq (a : Int) : s'.inBounds a = s.inBounds a :=
  State.inBounds_congr h.memLen a

theorem SameMachine.fetch_eq : s'.fetch = s.fetch := by
  simp only [State.fetch, State.window, h.memRead_eq, h.inBounds_eq, h.memLen, h.pc]

theorem SameMachine.readOperand_eq (o : Operand) : readOperand s' o = readOperand s o := by
  cases o <;> simp only [readOperand, h.memRead_eq, h.inBounds_eq]

/-- The cycle of format T answers alike: the same fault, or the same store and advance. -/
theorem SameMachine.threeOperand_cases (alu : Int → Int → Except Cause Int) (a b dest : Operand) :
    (∃ c, threeOperand alu a b dest s = .error c ∧ threeOperand alu a b dest s' = .error c) ∨
      ∃ d r, threeOperand alu a b dest s = .ok ((s.memWrite d r).advance 4) ∧
        threeOperand alu a b dest s' = .ok ((s'.memWrite d r).advance 4) := by
  have hread := h.readOperand_eq
  cases hs : threeOperand alu a b dest s with
  | error c =>
    refine .inl ⟨c, rfl, ?_⟩
    rw [threeOperand_eq_error_iff] at hs ⊢
    simpa only [hread, writeOperand_eq_error_iff, h.inBounds_eq] using hs
  | ok t =>
    obtain ⟨x, y, r, d, hx, hy, hr, rfl, hd, rfl⟩ := (threeOperand_eq_ok_iff _ _ _ _ _ _).mp hs
    exact .inr ⟨d, r, rfl, (threeOperand_eq_ok_iff _ _ _ _ _ _).mpr
      ⟨x, y, r, d, (hread a).trans hx, (hread b).trans hy, hr, rfl, (h.inBounds_eq d).trans hd, rfl⟩⟩

/-- The cycle of format J answers alike: the same fault, or the same pc. -/
theorem SameMachine.conditionalJump_cases (taken : Int → Bool) (cond target : Operand) :
    (∃ c, conditionalJump taken cond target s = .error c ∧ conditionalJump taken cond target s' = .error c) ∨
      ∃ v, conditionalJump taken cond target s = .ok (s.jumpTo v) ∧ conditionalJump taken cond target s' = .ok (s'.jumpTo v) := by
  have hread := h.readOperand_eq
  cases hs : conditionalJump taken cond target s with
  | error c =>
    refine .inl ⟨c, rfl, ?_⟩
    rw [conditionalJump_eq_error_iff] at hs ⊢
    simpa only [hread] using hs
  | ok t =>
    obtain ⟨c, hc, ⟨htaken, v, hv, rfl⟩ | ⟨htaken, rfl⟩⟩ := (conditionalJump_eq_ok_iff _ _ _ _ _).mp hs
    · exact .inr ⟨v, rfl, conditionalJump_of_taken ((hread cond).trans hc) htaken ((hread target).trans hv)⟩
    · have hnext : s'.advance 3 = s'.jumpTo (s.pc + (3 : Nat)) := by rw [← h.pc]; rfl
      exact .inr ⟨_, rfl, hnext ▸ conditionalJump_of_untaken ((hread cond).trans hc) htaken target⟩

end

/-- The next states of two steps that run in parallel, effect for effect. -/
inductive Parallel (s s' : State) : State → State → Prop
  | raised (c : Cause) : Parallel s s' (s.raise c) (s'.raise c)
  | inputRaised {dest : Int} (rest : List Int) (c : Cause) (hfetch : s.fetch = .ok (.input dest)) :
      Parallel s s' ((s.withInputs rest).raise c) ((s'.withInputs rest).raise c)
  | stored (d r : Int) : Parallel s s' ((s.memWrite d r).advance 4) ((s'.memWrite d r).advance 4)
  | inputStored {dest : Int} (rest : List Int) (v : Int) (hfetch : s.fetch = .ok (.input dest)) :
      Parallel s s' (((s.withInputs rest).memWrite dest v).advance 2) (((s'.withInputs rest).memWrite dest v).advance 2)
  | delivered (v : Int) : Parallel s s' ((s.deliver v).advance 2) ((s'.deliver v).advance 2)
  | jumped (v : Int) : Parallel s s' (s.jumpTo v) (s'.jumpTo v)
  | halted : Parallel s s' s.halt s'.halt

/-- Two shared cycles that answer alike complete in parallel. -/
theorem complete_parallel {s s' t : State} {r r' : Except Cause State}
    (h : (∃ c, r = .error c ∧ r' = .error c) ∨ ∃ u u', r = .ok u ∧ r' = .ok u' ∧ Parallel s s' u u')
    (ht : s.complete r = .next t) : ∃ t', s'.complete r' = .next t' ∧ Parallel s s' t t' := by
  obtain ⟨c, rfl, rfl⟩ | ⟨u, u', rfl, rfl, hpar⟩ := h
  · obtain rfl : s.raise c = t := by simpa using ht
    exact ⟨_, rfl, .raised c⟩
  · obtain rfl : u = t := by simpa using ht
    exact ⟨u', rfl, hpar⟩

/-- EXECUTE runs in parallel on states that differ in what the instruction cannot see; Input sees the queue too. -/
theorem exec_parallel {s s' t : State} {i : Instr} (h : SameMachine s s') (hfetch : s.fetch = .ok i)
    (hqueue : (∃ dest, i = .input dest) → s'.inChan = s.inChan) (ht : exec i s = .next t) :
    ∃ t', exec i s' = .next t' ∧ Parallel s s' t t' := by
  have formatT (alu : Int → Int → Except Cause Int) (a b dest : Operand)
      (ht : s.complete (threeOperand alu a b dest s) = .next t) :
      ∃ t', s'.complete (threeOperand alu a b dest s') = .next t' ∧ Parallel s s' t t' :=
    complete_parallel ((h.threeOperand_cases alu a b dest).imp id fun ⟨d, r, hok, hok'⟩ => ⟨_, _, hok, hok', .stored d r⟩) ht
  have formatJ (taken : Int → Bool) (cond target : Operand) (ht : s.complete (conditionalJump taken cond target s) = .next t) :
      ∃ t', s'.complete (conditionalJump taken cond target s') = .next t' ∧ Parallel s s' t t' :=
    complete_parallel ((h.conditionalJump_cases taken cond target).imp id fun ⟨v, hok, hok'⟩ => ⟨_, _, hok, hok', .jumped v⟩) ht
  cases i with
  | add a b dest => rw [exec_add, h.width]; exact formatT _ a b dest ht
  | multiply a b dest => rw [exec_multiply, h.width]; exact formatT _ a b dest ht
  | lessThan a b dest => exact formatT _ a b dest ht
  | equal a b dest => exact formatT _ a b dest ht
  | jumpIfTrue cond target => exact formatJ _ cond target ht
  | jumpIfFalse cond target => exact formatJ _ cond target ht
  | input dest =>
    have hin' := hqueue ⟨dest, rfl⟩
    obtain ⟨v, rest, hin, ⟨hd, rfl⟩ | ⟨hd, rfl⟩⟩ := (execInput_eq_next_iff dest s t).mp ht
    · exact ⟨_, (execInput_eq_next_iff dest s' _).mpr ⟨v, rest, hin'.trans hin, .inl ⟨(h.inBounds_eq dest).trans hd, rfl⟩⟩,
        .inputStored rest v hfetch⟩
    · exact ⟨_, (execInput_eq_next_iff dest s' _).mpr ⟨v, rest, hin'.trans hin, .inr ⟨(h.inBounds_eq dest).trans hd, rfl⟩⟩,
        .inputRaised rest _ hfetch⟩
  | output src =>
    obtain ⟨hsrc, rfl⟩ | ⟨hsrc, rfl⟩ := (execOutput_eq_next_iff src s t).mp ht
    · exact ⟨_, (execOutput_eq_next_iff src s' _).mpr (.inl ⟨(h.inBounds_eq src).trans hsrc, rfl⟩),
        by rw [h.memRead_eq src]; exact .delivered _⟩
    · exact ⟨_, (execOutput_eq_next_iff src s' _).mpr (.inr ⟨(h.inBounds_eq src).trans hsrc, rfl⟩), .raised _⟩
  | halt =>
    obtain rfl := (execHalt_eq_next_iff s t).mp ht
    exact ⟨_, exec_halt s', .halted⟩

theorem step_parallel {s s' t : State} (h : SameMachine s s')
    (hqueue : (∃ dest, s.fetch = .ok (.input dest)) → s'.inChan = s.inChan) (ht : step s = .next t) :
    ∃ t', step s' = .next t' ∧ Parallel s s' t t' := by
  obtain ⟨hrun, ⟨c, hfetch, rfl⟩ | ⟨i, hfetch, hexec⟩⟩ := step_next_cases ht
  · exact ⟨_, step_of_fetch_error (h.run.trans hrun) (h.fetch_eq.trans hfetch), .raised c⟩
  · rw [step_of_fetch_ok (h.run.trans hrun) (h.fetch_eq.trans hfetch)]
    exact exec_parallel h hfetch (fun ⟨dest, hi⟩ => hqueue ⟨dest, hi ▸ hfetch⟩) hexec

/-- Settles O33: in parallel under another queue, and no effect but Input's touches the queue. -/
theorem inputChannelSeenByInputAlone : Obligations.InputChannelSeenByInputAlone := by
  intro s t queue hnoInput ht
  obtain ⟨t', ht', hpar⟩ := step_parallel (s := s) (s' := s.withInputs queue) ⟨rfl, rfl, rfl, rfl, rfl⟩
    (fun ⟨dest, hfetch⟩ => absurd hfetch (hnoInput dest)) ht
  refine ht'.trans ?_
  cases hpar with
  | inputRaised _ _ hfetch | inputStored _ _ hfetch => exact absurd hfetch (hnoInput _)
  | _ => rfl

/-- Settles O32: the steps run in parallel, and each pair of effects leaves what a program can see alike. -/
theorem statusRegistersUnseenByPrograms : Obligations.StatusRegistersUnseenByPrograms := by
  intro s s' hview
  obtain ⟨hwidth, hlen, hmem, hpc, hrun, hin⟩ := hview
  have hsame : SameMachine s s' := ⟨hwidth.symm, hlen.symm, hmem.symm, hpc.symm, hrun.symm⟩
  refine ⟨fun t ht => ?next, fun f hf => ?stop⟩
  case next =>
    obtain ⟨t', ht', hpar⟩ := step_parallel hsame (fun _ => hin.symm) ht
    have hrunning : s.run = .running := running_of_step_eq_next ht
    refine ⟨t', ht', ?_⟩
    cases hpar <;> simp [SameProgramView, hrunning, ← hwidth, ← hlen, ← hmem, ← hpc, ← hrun, ← hin, hsame.memRead_eq]
  case stop => rwa [step_eq_fault_iff, hsame.fetch_eq, ← hrun, ← hin, ← step_eq_fault_iff]

end Sys2Proof.Machine

end

section
/-! PROOFS. The refinement statements: the step against the fault list of R169 and the summary table of R102, both written from
the cells at the pc. A cycle is a list of checks in order, then one effect. -/

namespace Sys2Proof

theorem Op.code_injective : Function.Injective Op.code := by
  intro op op' h
  exact Option.some.inj ((lookupOp_code op).symm.trans (h ▸ lookupOp_code op'))

/-- Cells an instruction does not have do not count. -/
theorem Op.assemble_congr (op : Op) (f : Fields) {c1 c2 c3 c1' c2' c3' : Int} (h1 : 2 ≤ op.length → c1 = c1')
    (h2 : 3 ≤ op.length → c2 = c2') (h3 : 4 ≤ op.length → c3 = c3') : op.assemble f c1 c2 c3 = op.assemble f c1' c2' c3' := by
  cases op <;> simp_all [Op.length, Op.assemble]

end Sys2Proof

namespace Sys2Proof.Machine

open Sys2Proof.Safety

/-! ## Checks in order -/

/-- The cause of the first condition that holds. -/
def firstCause (checks : List (Bool × Cause)) : Option Cause := (checks.find? Prod.fst).map Prod.snd

/-- The value of a computation that raises the first of its checks that holds. -/
def checked {α : Type} (checks : List (Bool × Cause)) (value : α) : Except Cause α :=
  match firstCause checks with
  | some c => .error c
  | none => .ok value

@[simp] theorem firstCause_nil : firstCause [] = none := rfl

@[simp] theorem firstCause_cons (b : Bool) (c : Cause) (checks : List (Bool × Cause)) :
    firstCause ((b, c) :: checks) = if b = true then some c else firstCause checks := by
  cases b <;> rfl

theorem firstCause_append (l m : List (Bool × Cause)) : firstCause (l ++ m) = (firstCause l).or (firstCause m) := by
  rw [firstCause, List.find?_append, Option.map_or, firstCause, firstCause]

@[simp] theorem checked_nil {α : Type} (value : α) : checked [] value = .ok value := rfl

@[simp] theorem checked_cons {α : Type} (b : Bool) (c : Cause) (checks : List (Bool × Cause)) (value : α) :
    checked ((b, c) :: checks) value = if b = true then .error c else checked checks value := by
  cases b <;> rfl

theorem checked_of_some {α : Type} {checks : List (Bool × Cause)} {c : Cause} (h : firstCause checks = some c) (value : α) :
    checked checks value = .error c := by
  rw [checked, h]

theorem checked_of_none {α : Type} {checks : List (Bool × Cause)} (h : firstCause checks = none) (value : α) :
    checked checks value = .ok value := by
  rw [checked, h]

/-! ## DECODE and RESOLVE as checks -/

section

variable (s : State)

/-- R169, items 2 and 3: what DECODE checks of the word at the pc. -/
def wordConditions : List (Bool × Cause) :=
  [(decide (cellAt s 0 < 0 ∨ 100000 ≤ cellAt s 0), .malformedWord),
   (decide (1 < digitAt s 4), .invalidAddressingMode (digitAt s 4).toNat),
   (decide (1 < digitAt s 3), .invalidAddressingMode (digitAt s 3).toNat),
   (decide (1 < digitAt s 2), .invalidAddressingMode (digitAt s 2).toNat)]

/-- R169, items 4 and 5: what RESOLVE checks. -/
def resolveConditions : List (Bool × Cause) :=
  [(decide (opcodeAt s = 0 ∨ 9 ≤ opcodeAt s ∧ opcodeAt s ≤ 98), .unknownOpcode (opcodeAt s).toNat),
   (decide ((s.memLen : Int) < s.pc + lengthAt s), .truncatedInstruction)]

/-- R169, items 1 to 5: what is checked before EXECUTE. -/
def fetchConditions : List (Bool × Cause) :=
  (!s.inBounds s.pc, .programCounterOutOfBounds) :: (wordConditions s ++ resolveConditions s)

/-- R169, items 6 to 10: what EXECUTE checks. -/
def execConditions : List (Bool × Cause) := (faultConditions s).drop 7

theorem firstFault_eq : firstFault s = (firstCause (fetchConditions s)).or (firstCause (execConditions s)) := by
  rw [← firstCause_append]
  rfl

/-- The fields of the word at the pc (R61). -/
def fieldsAt : Fields := ⟨(opcodeAt s).toNat, (digitAt s 2).toNat, (digitAt s 3).toNat, (digitAt s 4).toNat⟩

theorem cellAt_zero : cellAt s 0 = s.memRead s.pc := by rw [cellAt, Int.add_zero]

theorem opcodeAt_range : 0 ≤ opcodeAt s ∧ opcodeAt s < 100 := by
  unfold opcodeAt
  omega

theorem digitAt_nonneg (i : Nat) : 0 ≤ digitAt s i := Int.emod_nonneg _ (by decide)

/-- DECODE raises the first of its conditions, and else gives the fields. -/
theorem decodeWord_at : decodeWord (s.memRead s.pc) = checked (wordConditions s) (fieldsAt s) := by
  rw [← cellAt_zero]
  by_cases hrange : cellAt s 0 < 0 ∨ 100000 ≤ cellAt s 0
  · simp [decodeWord_of_malformed hrange, wordConditions, hrange]
  · rw [decodeWord_of_range (by omega) (by omega)]
    change checkModes (fieldsAt s) = _
    have hlarge (i : Nat) : 1 < (digitAt s i).toNat ↔ 1 < digitAt s i := by omega
    simp [wordConditions, hrange, checkModes, fieldsAt, hlarge]

/-- R66: the opcode is undefined, or it is the code of an operation. -/
theorem opcodeAt_undefined_iff :
    (opcodeAt s = 0 ∨ 9 ≤ opcodeAt s ∧ opcodeAt s ≤ 98) ↔ ¬ ∃ op : Op, opcodeAt s = op.code := by
  have hrange := opcodeAt_range s
  rw [← mem_codes_iff]
  simp only [List.mem_cons, List.not_mem_nil, or_false]
  omega

end

section

variable {s : State}

theorem lengthAt_of_code {op : Op} (h : opcodeAt s = op.code) : lengthAt s = op.length := by
  unfold lengthAt
  rw [h]
  cases op <;> rfl

/-- RESOLVE raises the first of its conditions, and else assembles the operation from the cells after the pc. -/
theorem resolve_at (hpc : s.inBounds s.pc = true) :
    (∃ c, resolve (fieldsAt s) s.window = .error c ∧ firstCause (resolveConditions s) = some c) ∨
      ∃ op : Op, opcodeAt s = op.code ∧ firstCause (resolveConditions s) = none ∧
        resolve (fieldsAt s) s.window = .ok (op.assemble (fieldsAt s) (cellAt s 1) (cellAt s 2) (cellAt s 3)) := by
  have hdefined := opcodeAt_undefined_iff s
  have hrange := opcodeAt_range s
  by_cases hop : ∃ op : Op, opcodeAt s = op.code
  · obtain ⟨op, hcode⟩ := hop
    have hfields : (fieldsAt s).op = op.code := by
      simp only [fieldsAt, hcode, Int.toNat_natCast]
    have hknown : ¬ (opcodeAt s = 0 ∨ 9 ≤ opcodeAt s ∧ opcodeAt s ≤ 98) := by
      rw [hdefined, not_not]
      exact ⟨op, hcode⟩
    have htruncated := State.window_length_lt_iff hpc op
    rw [resolve_of_code hfields, resolveConditions, lengthAt_of_code hcode]
    by_cases hlen : s.window.length < op.length
    · exact .inl ⟨.truncatedInstruction, if_pos hlen, by simp [hknown, htruncated.mp hlen]⟩
    · refine .inr ⟨op, hcode, by simp [hknown, htruncated.not.mp hlen], ?_⟩
      have hcell (k : Nat) (hk : k + 1 ≤ op.length) : s.window.getD k 0 = cellAt s k :=
        s.window_getD k (s.window_length ▸ by omega)
      rw [if_neg hlen, op.assemble_congr (fieldsAt s) (hcell 1) (hcell 2) (hcell 3)]
      rfl
  · have hundefined := hdefined.mpr hop
    refine .inl ⟨.unknownOpcode (opcodeAt s).toNat, ?_, by simp [resolveConditions, hundefined]⟩
    have hlookup : lookupOp (fieldsAt s).op = none := (lookupOp_eq_none_iff _).mpr fun op h => hop ⟨op, by
      simp only [fieldsAt] at h
      omega⟩
    simp only [resolve, hlookup]
    rfl

variable (s)

/-- A fetch raises the first of the conditions before EXECUTE, and else gives the instruction of the cells at the pc. -/
theorem State.fetch_at :
    (∃ c, s.fetch = .error c ∧ firstCause (fetchConditions s) = some c) ∨
      ∃ op : Op, opcodeAt s = op.code ∧ firstCause (fetchConditions s) = none ∧
        ((digitAt s 2).toNat ≤ 1 ∧ (digitAt s 3).toNat ≤ 1 ∧ (digitAt s 4).toNat ≤ 1) ∧
        s.fetch = .ok (op.assemble (fieldsAt s) (cellAt s 1) (cellAt s 2) (cellAt s 3)) := by
  cases hpc : s.inBounds s.pc with
  | false =>
    exact .inl ⟨_, (State.fetch_eq_programCounterOutOfBounds_iff s).mpr hpc, by simp [fetchConditions, hpc]⟩
  | true =>
    have hfirst : firstCause (fetchConditions s) = (firstCause (wordConditions s)).or (firstCause (resolveConditions s)) := by
      simp [fetchConditions, hpc, firstCause_append]
    have hdecode := decodeWord_at s
    cases hword : firstCause (wordConditions s) with
    | some c =>
      rw [checked_of_some hword] at hdecode
      obtain ⟨rest, hwindow⟩ := State.window_eq_cons hpc
      exact .inl ⟨c, by simp only [State.fetch, hpc, if_true, hwindow, decode, hdecode], by simp [hfirst, hword]⟩
    | none =>
      rw [checked_of_none hword] at hdecode
      rw [State.fetch_eq_resolve hpc hdecode, hfirst, hword, Option.none_or]
      obtain herror | ⟨op, hcode, hnone, hok⟩ := resolve_at hpc
      · exact .inl herror
      · exact .inr ⟨op, hcode, hnone, modes_le_of_decodeWord hdecode, hok⟩

/-! ## EXECUTE as checks -/

variable {s}

theorem digitAt_cases {i : Nat} (h : (digitAt s i).toNat ≤ 1) : digitAt s i = 0 ∨ digitAt s i = 1 := by
  have := digitAt_nonneg s i
  omega

/-- R96 from the cells: a Position outside memory is a bad address, and else the operand has its value. -/
theorem readOperand_at (k : Nat) (h : (digitAt s (k + 1)).toNat ≤ 1) :
    readOperand s (tag (digitAt s (k + 1)).toNat (cellAt s k)) =
      checked [(badAddress s k, .outOfBounds (cellAt s k))] (operandAt s k) := by
  rcases digitAt_cases h with hdigit | hdigit
  · cases hbounds : s.inBounds (cellAt s k) <;> simp [hdigit, tag, readOperand, badAddress, operandAt, hbounds]
  · simp [hdigit, tag, readOperand, badAddress, operandAt]

/-- R97 from the cells. -/
theorem writeOperand_at (h : (digitAt s 4).toNat ≤ 1) (r : Int) :
    writeOperand s (tag (digitAt s 4).toNat (cellAt s 3)) r =
      checked [(decide (digitAt s 4 = 1), .writeToImmediate), (badAddress s 3, .outOfBounds (cellAt s 3))]
        (s.memWrite (cellAt s 3) r) := by
  rcases digitAt_cases h with hdigit | hdigit
  · cases hbounds : s.inBounds (cellAt s 3) <;> simp [hdigit, tag, writeOperand, badAddress, hbounds]
  · simp [hdigit, tag, writeOperand]

theorem aluSum_eq_checked (width : CellWidth) (x y : Int) :
    aluSum width x y = checked [(!width.fits (x + y), .arithmeticOverflow)] (x + y) := by
  cases hfits : width.fits (x + y) <;> simp [aluSum, narrow, hfits]

theorem aluProduct_eq_checked (width : CellWidth) (x y : Int) :
    aluProduct width x y = checked [(!width.fits (x * y), .arithmeticOverflow)] (x * y) := by
  cases hfits : width.fits (x * y) <;> simp [aluProduct, narrow, hfits]

theorem threeOperand_at {alu : Int → Int → Except Cause Int} {overflows : Bool} {r : Int}
    (halu : alu (operandAt s 1) (operandAt s 2) = checked [(overflows, .arithmeticOverflow)] r)
    (h1 : (digitAt s 2).toNat ≤ 1) (h2 : (digitAt s 3).toNat ≤ 1) (h3 : (digitAt s 4).toNat ≤ 1) :
    threeOperand alu (tag (digitAt s 2).toNat (cellAt s 1)) (tag (digitAt s 3).toNat (cellAt s 2))
        (tag (digitAt s 4).toNat (cellAt s 3)) s =
      checked [(badAddress s 1, .outOfBounds (cellAt s 1)), (badAddress s 2, .outOfBounds (cellAt s 2)),
          (overflows, .arithmeticOverflow), (decide (digitAt s 4 = 1), .writeToImmediate),
          (badAddress s 3, .outOfBounds (cellAt s 3))]
        ((s.memWrite (cellAt s 3) r).advance 4) := by
  have ha : readOperand s (tag (digitAt s 2).toNat (cellAt s 1)) = _ := readOperand_at 1 h1
  have hb : readOperand s (tag (digitAt s 3).toNat (cellAt s 2)) = _ := readOperand_at 2 h2
  simp only [threeOperand, ha, hb, writeOperand_at h3]
  cases badAddress s 1 with
  | true => rfl
  | false => cases badAddress s 2 with
    | true => rfl
    | false =>
      simp only [checked_cons, checked_nil, Bool.false_eq_true, if_false] at halu ⊢
      rw [halu]
      cases overflows <;> cases decide (digitAt s 4 = 1) <;> cases badAddress s 3 <;> rfl

theorem conditionalJump_at (taken : Int → Bool) (h1 : (digitAt s 2).toNat ≤ 1) (h2 : (digitAt s 3).toNat ≤ 1) :
    conditionalJump taken (tag (digitAt s 2).toNat (cellAt s 1)) (tag (digitAt s 3).toNat (cellAt s 2)) s =
      checked [(badAddress s 1, .outOfBounds (cellAt s 1)),
          (taken (operandAt s 1) && badAddress s 2, .outOfBounds (cellAt s 2))]
        (if taken (operandAt s 1) = true then s.jumpTo (operandAt s 2) else s.advance 3) := by
  have hc : readOperand s (tag (digitAt s 2).toNat (cellAt s 1)) = _ := readOperand_at 1 h1
  have ht : readOperand s (tag (digitAt s 3).toNat (cellAt s 2)) = _ := readOperand_at 2 h2
  simp only [conditionalJump, hc, ht]
  cases badAddress s 1 with
  | true => rfl
  | false =>
    simp only [checked_cons, checked_nil, Bool.false_eq_true, if_false]
    cases taken (operandAt s 1) <;> cases badAddress s 2 <;> rfl

/-- The row of R102 for an operation: the state after a cycle without fault. For Input, of a queue that is not empty. -/
def rowState (s : State) : Op → State
  | .add => (s.memWrite (cellAt s 3) (operandAt s 1 + operandAt s 2)).advance 4
  | .multiply => (s.memWrite (cellAt s 3) (operandAt s 1 * operandAt s 2)).advance 4
  | .input => ((s.withInputs s.inChan.tail).memWrite (cellAt s 1) (s.inChan.headD 0)).advance 2
  | .output => (s.deliver (s.memRead (cellAt s 1))).advance 2
  | .jumpIfTrue => if condTrue (operandAt s 1) = true then s.jumpTo (operandAt s 2) else s.advance 3
  | .jumpIfFalse => if condFalse (operandAt s 1) = true then s.jumpTo (operandAt s 2) else s.advance 3
  | .lessThan => (s.memWrite (cellAt s 3) (if operandAt s 1 < operandAt s 2 then 1 else 0)).advance 4
  | .equal => (s.memWrite (cellAt s 3) (if operandAt s 1 = operandAt s 2 then 1 else 0)).advance 4
  | .halt => s.halt

/-- The state a raise of EXECUTE is entered over: Input has taken its value (D12). -/
def raiseState (s : State) : Op → State
  | .input => s.withInputs s.inChan.tail
  | _ => s

/-- For format T the conditions of EXECUTE are those of its cycle. -/
theorem checked_execConditions_formatT (h : isFormatT s = true) (t : State) :
    checked (execConditions s) t =
      checked [(badAddress s 1, .outOfBounds (cellAt s 1)), (badAddress s 2, .outOfBounds (cellAt s 2)),
        (resultOverflows s, .arithmeticOverflow), (decide (digitAt s 4 = 1), .writeToImmediate),
        (badAddress s 3, .outOfBounds (cellAt s 3))] t := by
  have hop : opcodeAt s ≠ 3 ∧ opcodeAt s ≠ 4 := by
    simp only [isFormatT, decide_eq_true_eq] at h
    omega
  simp [execConditions, faultConditions, h, hop]

/-- For format J too: nothing is written. -/
theorem checked_execConditions_formatJ (h : isFormatJ s = true) (t : State) :
    checked (execConditions s) t =
      checked [(badAddress s 1, .outOfBounds (cellAt s 1)), (jumpTaken s && badAddress s 2, .outOfBounds (cellAt s 2))] t := by
  have hop : opcodeAt s = 5 ∨ opcodeAt s = 6 := by simpa only [isFormatJ, decide_eq_true_eq] using h
  have hT : isFormatT s = false := by
    simp only [isFormatT, decide_eq_false_iff_not]
    omega
  have hover : resultOverflows s = false := by rcases hop with hop | hop <;> simp [resultOverflows, hop]
  have hport : opcodeAt s ≠ 3 ∧ opcodeAt s ≠ 4 := by omega
  simp [execConditions, faultConditions, h, hT, hover, hport]

/-- Input and Output check their address alone, whatever its mode digit (R70). -/
theorem checked_execConditions_port (h : opcodeAt s = 3 ∨ opcodeAt s = 4) (t : State) :
    checked (execConditions s) t = checked [(!s.inBounds (cellAt s 1), .outOfBounds (cellAt s 1))] t := by
  rcases h with h | h <;> simp [execConditions, faultConditions, isFormatT, isFormatJ, jumpTaken, resultOverflows, h]

theorem checked_execConditions_halt (h : opcodeAt s = 99) (t : State) : checked (execConditions s) t = .ok t := by
  simp [execConditions, faultConditions, isFormatT, isFormatJ, jumpTaken, resultOverflows, h]

/-- EXECUTE of the instruction at the pc raises the first of its conditions over the state it is entered with, and else ends in
the state of the table's row. -/
theorem exec_at {op : Op} (hop : opcodeAt s = op.code) (h1 : (digitAt s 2).toNat ≤ 1) (h2 : (digitAt s 3).toNat ≤ 1)
    (h3 : (digitAt s 4).toNat ≤ 1) (hin : op = .input → s.inChan ≠ []) :
    exec (op.assemble (fieldsAt s) (cellAt s 1) (cellAt s 2) (cellAt s 3)) s =
      (raiseState s op).complete (checked (execConditions s) (rowState s op)) := by
  have formatT {alu : Int → Int → Except Cause Int} {r : Int} (hT : isFormatT s = true)
      (halu : alu (operandAt s 1) (operandAt s 2) = checked [(resultOverflows s, .arithmeticOverflow)] r) :
      s.complete (threeOperand alu (tag (digitAt s 2).toNat (cellAt s 1)) (tag (digitAt s 3).toNat (cellAt s 2))
        (tag (digitAt s 4).toNat (cellAt s 3)) s) =
      s.complete (checked (execConditions s) ((s.memWrite (cellAt s 3) r).advance 4)) := by
    rw [checked_execConditions_formatT hT, threeOperand_at halu h1 h2 h3]
  have formatJ {taken : Int → Bool} (hJ : isFormatJ s = true) (htaken : jumpTaken s = taken (operandAt s 1)) :
      s.complete (conditionalJump taken (tag (digitAt s 2).toNat (cellAt s 1)) (tag (digitAt s 3).toNat (cellAt s 2)) s) =
      s.complete (checked (execConditions s)
        (if taken (operandAt s 1) = true then s.jumpTo (operandAt s 2) else s.advance 3)) := by
    rw [checked_execConditions_formatJ hJ, htaken, conditionalJump_at taken h1 h2]
  cases op with
  | add => exact formatT (by simp [isFormatT, hop, Op.code]) (by simp [aluSum_eq_checked, resultOverflows, hop, Op.code])
  | multiply =>
    exact formatT (by simp [isFormatT, hop, Op.code]) (by simp [aluProduct_eq_checked, resultOverflows, hop, Op.code])
  | lessThan => exact formatT (by simp [isFormatT, hop, Op.code]) (by simp [aluLess_eq, resultOverflows, hop, Op.code])
  | equal => exact formatT (by simp [isFormatT, hop, Op.code]) (by simp [aluEqual_eq, resultOverflows, hop, Op.code])
  | jumpIfTrue => exact formatJ (by simp [isFormatJ, hop, Op.code]) (by simp [jumpTaken, hop, Op.code, condTrue])
  | jumpIfFalse => exact formatJ (by simp [isFormatJ, hop, Op.code]) (by simp [jumpTaken, hop, Op.code, condFalse])
  | input =>
    obtain ⟨v, rest, hqueue⟩ := List.exists_cons_of_ne_nil (hin rfl)
    rw [checked_execConditions_port (.inl hop)]
    cases hbounds : s.inBounds (cellAt s 1) with
    | true => exact (execInput_eq_next_iff _ _ _).mpr ⟨v, rest, hqueue, .inl ⟨hbounds, by simp [rowState, hqueue]⟩⟩
    | false => exact (execInput_eq_next_iff _ _ _).mpr ⟨v, rest, hqueue, .inr ⟨hbounds, by simp [raiseState, hqueue]⟩⟩
  | output =>
    rw [checked_execConditions_port (.inr hop)]
    cases hbounds : s.inBounds (cellAt s 1) with
    | true => exact (execOutput_eq_next_iff _ _ _).mpr (.inl ⟨hbounds, rfl⟩)
    | false => exact (execOutput_eq_next_iff _ _ _).mpr (.inr ⟨hbounds, rfl⟩)
  | halt =>
    rw [checked_execConditions_halt hop]
    rfl

/-! ## The step -/

theorem rowState_run_ne_faulted (hrun : s.run = .running) (op : Op) : (rowState s op).run ≠ .faulted := by
  cases op with
  | jumpIfTrue | jumpIfFalse =>
    simp only [rowState]
    split <;> simp [hrun]
  | _ => simp [rowState, hrun]

/-- A running engine in which no condition holds ends its cycle in the state of the table's row, or waits at an Input. -/
theorem step_of_firstFault_none (hrun : s.run = .running) (h : firstFault s = none) :
    ∃ op : Op, opcodeAt s = op.code ∧
      (step s = .next (rowState s op) ∨ op = .input ∧ s.inChan = [] ∧ step s = .fault .waitingForInput) := by
  rw [firstFault_eq, Option.or_eq_none_iff] at h
  obtain ⟨hfetchNone, hexecNone⟩ := h
  obtain ⟨c, -, hc⟩ | ⟨op, hop, -, ⟨h1, h2, h3⟩, hfetch⟩ := s.fetch_at
  · rw [hfetchNone] at hc
    cases hc
  · refine ⟨op, hop, ?_⟩
    by_cases hin : op = .input → s.inChan ≠ []
    · left
      rw [step_of_fetch_ok hrun hfetch, exec_at hop h1 h2 h3 hin, checked_of_none hexecNone, State.complete_ok]
    · simp only [Classical.not_imp, ne_eq, not_not] at hin
      obtain ⟨rfl, hempty⟩ := hin
      exact .inr ⟨rfl, hempty, (step_eq_fault_iff s _).mpr (.inr (.inr ⟨hrun, rfl, hempty, _, hfetch⟩))⟩

/-- A running engine that does not wait and in which a condition holds enters the fault of the first one. -/
theorem step_of_firstFault_some (hrun : s.run = .running) (hwait : step s ≠ .fault .waitingForInput) {c : Cause}
    (h : firstFault s = some c) : ∃ u : State, step s = .next (u.raise c) := by
  rw [firstFault_eq] at h
  obtain ⟨c', hfetch, hc'⟩ | ⟨op, hop, hnone, ⟨h1, h2, h3⟩, hfetch⟩ := s.fetch_at
  · rw [hc', Option.some_or, Option.some.injEq] at h
    exact ⟨s, h ▸ step_of_fetch_error hrun hfetch⟩
  · rw [hnone, Option.none_or] at h
    have hin : op = .input → s.inChan ≠ [] := by
      rintro rfl hempty
      exact hwait ((step_eq_fault_iff s _).mpr (.inr (.inr ⟨hrun, rfl, hempty, _, hfetch⟩)))
    refine ⟨raiseState s op, ?_⟩
    rw [step_of_fetch_ok hrun hfetch, exec_at hop h1 h2 h3 hin, checked_of_some h, State.complete_error]

end

/-- Settles O17: the step is the fault entry of the first condition that holds, or a row of the table, which leaves `run`
unfaulted. -/
theorem stepReportsFirstFaultInPriorityOrder : Obligations.StepReportsFirstFaultInPriorityOrder := by
  intro s c hrun hwait
  constructor
  · rintro ⟨t, ht, hfaulted, herr⟩
    cases hfirst : firstFault s with
    | some c' =>
      obtain ⟨u, hu⟩ := step_of_firstFault_some hrun hwait hfirst
      obtain rfl : u.raise c' = t := by simpa [hu] using ht
      simpa using herr
    | none =>
      obtain ⟨op, -, hrow | ⟨-, -, hstop⟩⟩ := step_of_firstFault_none hrun hfirst
      · obtain rfl : rowState s op = t := by simpa [hrow] using ht
        exact absurd hfaulted (rowState_run_ne_faulted hrun op)
      · exact absurd hstop hwait
  · intro hfirst
    obtain ⟨u, hu⟩ := step_of_firstFault_some hrun hwait hfirst
    exact ⟨u.raise c, hu, rfl, rfl⟩

/-- Settles O18: the row of the opcode at the pc, for each of the nine. -/
theorem stepFollowsSummaryTable : Obligations.StepFollowsSummaryTable := by
  intro s hrun hnone
  obtain ⟨op, hop, hstep⟩ := step_of_firstFault_none hrun hnone
  have row (o : Op) (h : opcodeAt s = o.code) (hin : o = .input → s.inChan ≠ []) : step s = .next (rowState s o) := by
    obtain rfl : op = o := Op.code_injective (Int.ofNat.inj (hop.symm.trans h))
    exact hstep.resolve_right fun ⟨hinput, hempty, _⟩ => hin hinput hempty
  refine ⟨fun h => row .add h nofun, fun h => row .multiply h nofun, fun h v rest hin => ?input, fun h => row .output h nofun,
    fun h hc => ?trueTaken, fun h hc => ?truePassed, fun h hc => ?falseTaken, fun h hc => ?falsePassed,
    fun h => row .lessThan h nofun, fun h => row .equal h nofun, fun h => row .halt h nofun, (mem_codes_iff _).mpr ⟨op, hop⟩⟩
  case input =>
    rw [row .input h (by simp [hin])]
    simp only [rowState, hin]
    rfl
  case trueTaken => rw [row .jumpIfTrue h nofun, rowState, if_pos (by simpa [condTrue] using hc)]; rfl
  case truePassed => rw [row .jumpIfTrue h nofun, rowState, if_neg (by simpa [condTrue] using hc)]; rfl
  case falseTaken => rw [row .jumpIfFalse h nofun, rowState, if_pos (by simpa [condFalse] using hc)]; rfl
  case falsePassed => rw [row .jumpIfFalse h nofun, rowState, if_neg (by simpa [condFalse] using hc)]; rfl

end Sys2Proof.Machine

end
